-- ==== Sys2Proof/Word.lean ====
section
/-! DEFINITION. The word types of chip8_interpreter (00_scope.md R6, R8): every value is an unsigned integer of a
stated width, and no operation is signed. -/

namespace Sys2Proof

/-- An 8-bit value: V[i], DT, ST, SP, a byte of M, the immediate kk (R8). -/
abbrev Byte := BitVec 8

/-- A 16-bit value: PC, I, S[i], the opcode (R8). -/
abbrev Word := BitVec 16

/-- The 12-bit address field nnn = op[11:0] (R10, R53). -/
abbrev Addr := BitVec 12

/-- The number of a general register V0..VF (R13). -/
abbrev Reg := Fin 16

/-- The number of a key 0x0..0xF (R25). -/
abbrev Key := Fin 16

/-- VF, the register that is also the flag: V[15] (R6, R15). -/
abbrev regF : Reg := 15

end Sys2Proof
end

