-- ==== Sys2Proof/Syntax.lean ====
section
/-! DEFINITION. The instructions: one constructor for each of the 34 rows of spec/opcode_table.json, in the table's
order, with the fields the row lists (R10, R52, R53). The bits a row ignores are no field (R60; log entry 11). The
unknown words have no row and no constructor: they are `Handler.nop` of Decode.lean (R67). -/

namespace Sys2Proof

/-- An instruction as syntax. Every value of every field is legal (R53), and the fields' types admit no other. -/
inductive Instr where
  /-- 00E0 CLS (R71). -/
  | cls
  /-- 00EE RET (R78). -/
  | ret
  /-- 1nnn JP nnn (R79). -/
  | jp (nnn : Addr)
  /-- 2nnn CALL nnn (R80). -/
  | call (nnn : Addr)
  /-- 3xkk SE Vx,kk (R81). -/
  | seVxKk (x : Reg) (kk : Byte)
  /-- 4xkk SNE Vx,kk (R82). -/
  | sneVxKk (x : Reg) (kk : Byte)
  /-- 5xy0 SE Vx,Vy (R83). -/
  | seVxVy (x y : Reg)
  /-- 6xkk LD Vx,kk (R87). -/
  | ldVxKk (x : Reg) (kk : Byte)
  /-- 7xkk ADD Vx,kk (R88). -/
  | addVxKk (x : Reg) (kk : Byte)
  /-- 8xy0 LD Vx,Vy (R89). -/
  | ldVxVy (x y : Reg)
  /-- 8xy1 OR Vx,Vy (R90). -/
  | orVxVy (x y : Reg)
  /-- 8xy2 AND Vx,Vy (R91). -/
  | andVxVy (x y : Reg)
  /-- 8xy3 XOR Vx,Vy (R92). -/
  | xorVxVy (x y : Reg)
  /-- 8xy4 ADD Vx,Vy (R93). -/
  | addVxVy (x y : Reg)
  /-- 8xy5 SUB Vx,Vy (R94). -/
  | subVxVy (x y : Reg)
  /-- 8xy6 SHR Vx (R95). The table lists y; the meaning does not read it. -/
  | shrVx (x y : Reg)
  /-- 8xy7 SUBN Vx,Vy (R96). -/
  | subnVxVy (x y : Reg)
  /-- 8xyE SHL Vx (R97). The table lists y; the meaning does not read it. -/
  | shlVx (x y : Reg)
  /-- 9xy0 SNE Vx,Vy (R84). -/
  | sneVxVy (x y : Reg)
  /-- Annn LD I,nnn (R100). -/
  | ldI (nnn : Addr)
  /-- Bnnn JP V0,nnn (R85). -/
  | jpV0 (nnn : Addr)
  /-- Cxkk RND Vx,kk (R98). -/
  | rnd (x : Reg) (kk : Byte)
  /-- Dxyn DRW Vx,Vy,n (R72): n is a row count 0..15. -/
  | drw (x y : Reg) (n : Fin 16)
  /-- Ex9E SKP Vx (R107). -/
  | skp (x : Reg)
  /-- ExA1 SKNP Vx (R108). -/
  | sknp (x : Reg)
  /-- Fx07 LD Vx,DT (R109). -/
  | ldVxDt (x : Reg)
  /-- Fx0A LD Vx,K (R110). -/
  | ldVxK (x : Reg)
  /-- Fx15 LD DT,Vx (R111). -/
  | ldDtVx (x : Reg)
  /-- Fx18 LD ST,Vx (R112). -/
  | ldStVx (x : Reg)
  /-- Fx1E ADD I,Vx (R101). -/
  | addIVx (x : Reg)
  /-- Fx29 LD F,Vx (R102). -/
  | ldFVx (x : Reg)
  /-- Fx33 LD B,Vx (R103). -/
  | ldBVx (x : Reg)
  /-- Fx55 LD [I],Vx (R104). -/
  | ldMemVx (x : Reg)
  /-- Fx65 LD Vx,[I] (R105). -/
  | ldVxMem (x : Reg)
  deriving DecidableEq, Repr

end Sys2Proof
end

