-- ==== Sys2Proof/Decode.lean ====
section
/-! DEFINITION. Decoding and encoding (30_encoding.md R51 to R61). Decoding is a pure function of the 16-bit opcode
(R61), by the primary table (R54) and the sub-tables T0, T8, TE and TF (R55 to R58). Every word has exactly one
handler: one of the 34 instructions, or NOP under the name of the sub-table entry it reaches (R59, R65). -/

namespace Sys2Proof

/-- Which NOP entry an unknown word reaches (R59). -/
inductive Unknown where
  /-- `0zzs` with s neither 0x0 nor 0xE (R55). -/
  | t0
  /-- `8xys` with s in 8, 9, A, B, C, D, F (R56). -/
  | t8
  /-- `Exss` with ss neither 9E nor A1 (R57). -/
  | te
  /-- `Fxss` with ss outside the nine values of R58. -/
  | tf
  deriving DecidableEq, Repr

/-- What a word decodes to (R65). -/
inductive Handler where
  /-- One of the 34 instructions. -/
  | instr (i : Instr)
  /-- The no-op handler for unknown opcodes (R67). -/
  | nop (why : Unknown)
  deriving DecidableEq, Repr

/-- `op[hi:lo]`, the unsigned field of bits hi down to lo (R8). -/
def field (op : Word) (hi lo : Nat) : Nat := op.toNat / 2 ^ lo % 2 ^ (hi - lo + 1)

/-- `x = op[11:8]` (R10). -/
def fieldX (op : Word) : Reg := Fin.ofNat 16 (field op 11 8)

/-- `y = op[7:4]` (R10). -/
def fieldY (op : Word) : Reg := Fin.ofNat 16 (field op 7 4)

/-- `n = op[3:0]` (R10). -/
def fieldN (op : Word) : Fin 16 := Fin.ofNat 16 (field op 3 0)

/-- `kk = op[7:0]` (R10). -/
def fieldKk (op : Word) : Byte := BitVec.ofNat 8 (field op 7 0)

/-- `nnn = op[11:0]` (R10). -/
def fieldNnn (op : Word) : Addr := BitVec.ofNat 12 (field op 11 0)

/-- Sub-table T0, keyed on op[3:0]; op[11:4] is not examined (R55, C2). -/
def decodeT0 (op : Word) : Handler :=
  match field op 3 0 with
  | 0x0 => .instr .cls
  | 0xE => .instr .ret
  | _ => .nop .t0

/-- Sub-table T8, keyed on op[3:0] (R56). -/
def decodeT8 (op : Word) : Handler :=
  match field op 3 0 with
  | 0x0 => .instr (.ldVxVy (fieldX op) (fieldY op))
  | 0x1 => .instr (.orVxVy (fieldX op) (fieldY op))
  | 0x2 => .instr (.andVxVy (fieldX op) (fieldY op))
  | 0x3 => .instr (.xorVxVy (fieldX op) (fieldY op))
  | 0x4 => .instr (.addVxVy (fieldX op) (fieldY op))
  | 0x5 => .instr (.subVxVy (fieldX op) (fieldY op))
  | 0x6 => .instr (.shrVx (fieldX op) (fieldY op))
  | 0x7 => .instr (.subnVxVy (fieldX op) (fieldY op))
  | 0xE => .instr (.shlVx (fieldX op) (fieldY op))
  | _ => .nop .t8

/-- Sub-table TE, keyed on op[7:0] (R57). -/
def decodeTE (op : Word) : Handler :=
  match field op 7 0 with
  | 0x9E => .instr (.skp (fieldX op))
  | 0xA1 => .instr (.sknp (fieldX op))
  | _ => .nop .te

/-- Sub-table TF, keyed on op[7:0] (R58). -/
def decodeTF (op : Word) : Handler :=
  match field op 7 0 with
  | 0x07 => .instr (.ldVxDt (fieldX op))
  | 0x0A => .instr (.ldVxK (fieldX op))
  | 0x15 => .instr (.ldDtVx (fieldX op))
  | 0x18 => .instr (.ldStVx (fieldX op))
  | 0x1E => .instr (.addIVx (fieldX op))
  | 0x29 => .instr (.ldFVx (fieldX op))
  | 0x33 => .instr (.ldBVx (fieldX op))
  | 0x55 => .instr (.ldMemVx (fieldX op))
  | 0x65 => .instr (.ldVxMem (fieldX op))
  | _ => .nop .tf

/-- The primary table, keyed on op[15:12] (R54). op[3:0] of the words 5xyn and 9xyn is not examined (C3). The last
arm is 0xF: a nibble has no other value. -/
def decode (op : Word) : Handler :=
  match field op 15 12 with
  | 0x0 => decodeT0 op
  | 0x1 => .instr (.jp (fieldNnn op))
  | 0x2 => .instr (.call (fieldNnn op))
  | 0x3 => .instr (.seVxKk (fieldX op) (fieldKk op))
  | 0x4 => .instr (.sneVxKk (fieldX op) (fieldKk op))
  | 0x5 => .instr (.seVxVy (fieldX op) (fieldY op))
  | 0x6 => .instr (.ldVxKk (fieldX op) (fieldKk op))
  | 0x7 => .instr (.addVxKk (fieldX op) (fieldKk op))
  | 0x8 => decodeT8 op
  | 0x9 => .instr (.sneVxVy (fieldX op) (fieldY op))
  | 0xA => .instr (.ldI (fieldNnn op))
  | 0xB => .instr (.jpV0 (fieldNnn op))
  | 0xC => .instr (.rnd (fieldX op) (fieldKk op))
  | 0xD => .instr (.drw (fieldX op) (fieldY op) (fieldN op))
  | 0xE => decodeTE op
  | _ => decodeTF op

/-- The opcode of two fetched bytes: the high byte comes first (R37, R51). -/
def opcodeOf (high low : Byte) : Word := high ++ low

/-- The bytes of an opcode in the order they lie in M: the high byte at the lower address (R37). -/
def bytesOf (op : Word) : Byte × Byte := (op.extractLsb' 8 8, op.extractLsb' 0 8)

/-- Decoding from bytes: a decoder always consumes two bytes (R51). With fewer than two there is no word. -/
def decodeBytes : List Byte → Option (Handler × List Byte)
  | high :: low :: rest => some (decode (opcodeOf high low), rest)
  | _ => none

/-! ### The encoder (R52), with the ignored bits at their canonical value (R60, R62) -/

/-- Format A: `oooo nnnn nnnn nnnn`. -/
def encodeA (o : Nat) (nnn : Addr) : Word := BitVec.ofNat 16 (o * 4096 + nnn.toNat)

/-- Format XK: `oooo xxxx kkkk kkkk`. -/
def encodeXK (o : Nat) (x : Reg) (kk : Byte) : Word := BitVec.ofNat 16 (o * 4096 + x * 256 + kk.toNat)

/-- Formats XY and XYN: `oooo xxxx yyyy ssss`, where s selects in T8, is the row count of Dxyn, or is 0. -/
def encodeXY (o : Nat) (x y : Reg) (s : Nat) : Word := BitVec.ofNat 16 (o * 4096 + x * 256 + y * 16 + s)

/-- Format X: `oooo xxxx ssss ssss`, where s selects in TE or TF. -/
def encodeX (o : Nat) (x : Reg) (s : Nat) : Word := BitVec.ofNat 16 (o * 4096 + x * 256 + s)

/-- The canonical word of an instruction (R52 and the column "canonical" of spec/opcode_table.json). -/
def encode : Instr → Word
  | .cls => 0x00E0
  | .ret => 0x00EE
  | .jp nnn => encodeA 0x1 nnn
  | .call nnn => encodeA 0x2 nnn
  | .seVxKk x kk => encodeXK 0x3 x kk
  | .sneVxKk x kk => encodeXK 0x4 x kk
  | .seVxVy x y => encodeXY 0x5 x y 0
  | .ldVxKk x kk => encodeXK 0x6 x kk
  | .addVxKk x kk => encodeXK 0x7 x kk
  | .ldVxVy x y => encodeXY 0x8 x y 0x0
  | .orVxVy x y => encodeXY 0x8 x y 0x1
  | .andVxVy x y => encodeXY 0x8 x y 0x2
  | .xorVxVy x y => encodeXY 0x8 x y 0x3
  | .addVxVy x y => encodeXY 0x8 x y 0x4
  | .subVxVy x y => encodeXY 0x8 x y 0x5
  | .shrVx x y => encodeXY 0x8 x y 0x6
  | .subnVxVy x y => encodeXY 0x8 x y 0x7
  | .shlVx x y => encodeXY 0x8 x y 0xE
  | .sneVxVy x y => encodeXY 0x9 x y 0
  | .ldI nnn => encodeA 0xA nnn
  | .jpV0 nnn => encodeA 0xB nnn
  | .rnd x kk => encodeXK 0xC x kk
  | .drw x y n => encodeXY 0xD x y n
  | .skp x => encodeX 0xE x 0x9E
  | .sknp x => encodeX 0xE x 0xA1
  | .ldVxDt x => encodeX 0xF x 0x07
  | .ldVxK x => encodeX 0xF x 0x0A
  | .ldDtVx x => encodeX 0xF x 0x15
  | .ldStVx x => encodeX 0xF x 0x18
  | .addIVx x => encodeX 0xF x 0x1E
  | .ldFVx x => encodeX 0xF x 0x29
  | .ldBVx x => encodeX 0xF x 0x33
  | .ldMemVx x => encodeX 0xF x 0x55
  | .ldVxMem x => encodeX 0xF x 0x65

/-- The bytes of an instruction as they lie in M. -/
def encodeBytes (i : Instr) : List Byte := [(bytesOf (encode i)).1, (bytesOf (encode i)).2]

/-! ### The host's table words -/

/-- The first opcode of an instruction whose bits are w, of which the table gives nbits: the bits above are zero, and
every instruction of this machine is one word. -/
def tableWord (nbits w : Nat) : Word := BitVec.ofNat 16 (w % 2 ^ nbits)

/-- The instruction the decoder reads from such a word laid out in M; none for an unknown word, whose handler is NOP
and no instruction of the table (R67). -/
def decodeTableWord (nbits w : Nat) : Option Instr :=
  match decodeBytes [(bytesOf (tableWord nbits w)).1, (bytesOf (tableWord nbits w)).2] with
  | some (.instr i, _) => some i
  | _ => none

end Sys2Proof
end

