-- ==== Sys2Proof/Config.lean ====
section
/-! DEFINITION. What is fixed for the machine (00_scope.md R6) and the values the spec leaves free. -/

namespace Sys2Proof.Config

/-- M has 4096 bytes (R6, R35). -/
@[simp] abbrev memSize : Nat := 4096

/-- The font fills 0x050..0x09F (R6, R42). -/
@[simp] abbrev fontBase : Nat := 0x050

/-- 16 glyphs of 5 bytes (R6, R129). -/
@[simp] abbrev fontSize : Nat := 80

/-- The ROM's first byte and the reset PC (R6). -/
@[simp] abbrev programBase : Nat := 0x200

/-- The largest ROM: 4096 − 0x200 = 3584 bytes (R6, R44). -/
@[simp] abbrev romLimit : Nat := 3584

/-- FONT, glyphs 0 to 7: the spec's default table (R129, D8). PRESUMED (the spec marks it general knowledge, G1),
log entry 5; unsafe for a claim about the shape of a glyph. -/
def fontLow : List Byte :=
  [0xF0, 0x90, 0x90, 0x90, 0xF0] ++ [0x20, 0x60, 0x20, 0x20, 0x70] ++
  [0xF0, 0x10, 0xF0, 0x80, 0xF0] ++ [0xF0, 0x10, 0xF0, 0x10, 0xF0] ++
  [0x90, 0x90, 0xF0, 0x10, 0x10] ++ [0xF0, 0x80, 0xF0, 0x10, 0xF0] ++
  [0xF0, 0x80, 0xF0, 0x90, 0xF0] ++ [0xF0, 0x10, 0x20, 0x40, 0x40]

/-- FONT, glyphs 8 to F (R129, D8). PRESUMED as `fontLow`, log entry 5; unsafe. -/
def fontHigh : List Byte :=
  [0xF0, 0x90, 0xF0, 0x90, 0xF0] ++ [0xF0, 0x90, 0xF0, 0x10, 0xF0] ++
  [0xF0, 0x90, 0xF0, 0x90, 0x90] ++ [0xE0, 0x90, 0xE0, 0x90, 0xE0] ++
  [0xF0, 0x80, 0x80, 0x80, 0xF0] ++ [0xE0, 0x90, 0x90, 0x90, 0xE0] ++
  [0xF0, 0x80, 0xF0, 0x80, 0xF0] ++ [0xF0, 0x80, 0xF0, 0x80, 0x80]

/-- The type of FONT, a table of 80 bytes: the configuration field of R129 (R6, D8, U8). A machine carries its table in
`State.font`. -/
abbrev Font := Vector Byte 80

/-- FONT at its default (R129). -/
def font : Font := ⟨(fontLow ++ fontHigh).toArray, rfl⟩

/-- What `Reset` leaves in M[a] for a font table F: F at 0x050..0x09F and zero everywhere else (R35, R128, R130). -/
def resetByte (F : Font) (a : Nat) : Byte :=
  if h : fontBase ≤ a ∧ a < fontBase + fontSize then F[a - fontBase]'(by simp only [fontBase, fontSize] at h ⊢; omega) else 0

/-- CELL_ON and CELL_OFF, the host-side parameters for a cell's appearance, which are distinct (R6, R24, D9). -/
structure CellConstants (α : Type) where
  on : α
  off : α
  distinct : on ≠ off

/-- The RNG parameter (R27, D7, U7): the byte that the generator started from a seed gives as its k-th draw. A FREE
VALUE: it has no body, so no proof can know one of its values and every generator is admitted. DESIGN CHOICE (the
form: seed and number of draws), log entry 3; safe for claims about one run, unsafe for claims that compare two runs
of one seed. -/
opaque randomByte (seed draw : Nat) : Byte

/-- The seed of `State.reset`; the spec leaves the seed OPEN (R27). DESIGN CHOICE, log entry 4; unsafe in form, as a
chosen reset value, but no claim can use it: `randomByte` has no known value at any seed. -/
abbrev resetSeed : Nat := 0

end Sys2Proof.Config
end

