-- ==== Sys2Proof/Machine/State.lean ====
section
/-! DEFINITION. The state of the machine: every piece of state of 10_state.md (R13 to R30), as plain data, and its value
after `Reset` (70_reset_and_hazards.md R128, R130). -/

namespace Sys2Proof.Machine

/-- M (R35): the bytes that differ from what `Reset` leaves, as (address, byte) pairs. What an address that is not
listed reads as, for the machine's font, is `unlisted`, in Machine/Ops.lean; the canonical form is `Memory.wf` there. -/
abbrev Memory := List Host.Cell

/-- FB (R23): 32 rows of 64 cells, `fb[r][c]` being FB[r][c]; true is "on". -/
abbrev FrameBuffer := Vector (Vector Bool 64) 32

/-- KP (R25): 16 cells, true is "pressed". -/
abbrev Keypad := Vector Bool 16

/-- The hidden state of the RNG (R27), as the model's own representation: the seed it was started from and how many
bytes it has drawn. DESIGN CHOICE, log entry 3; safe for claims about one run. -/
structure Rng where
  seed : Nat
  draws : Nat
  deriving DecidableEq, Repr

/-- The fault status, state that the spec adds (R29, R116). -/
inductive FaultStatus where
  | none
  /-- CALL with SP = 16. -/
  | stackOverflow
  /-- RET with SP = 0. -/
  | stackUnderflow
  deriving DecidableEq, Repr

/-- The state (R30). -/
structure State where
  /-- V0..VF (R13). -/
  v : Vector Byte 16
  /-- I (R18): all 16 bits are kept. -/
  index : Word
  /-- PC (R16). -/
  pc : Word
  /-- SP (R20): 8 bits of storage; that it stays in 0..16 is an invariant. -/
  sp : Byte
  /-- S[0]..S[15] (R19). -/
  stack : Vector Word 16
  /-- DT, the delay timer (R21). -/
  dt : Byte
  /-- ST, the sound timer (R22). -/
  st : Byte
  /-- M (R35). -/
  mem : Memory
  /-- FB (R23). -/
  fb : FrameBuffer
  /-- KP (R25): written by the host only. -/
  kp : Keypad
  /-- The RNG (R27). -/
  rng : Rng
  /-- The opcode register (R28). -/
  opcode : Word
  /-- The fault status (R29). -/
  fault : FaultStatus
  /-- FONT, the machine's configuration field (R6, R129, D8) and no state of the spec: no operation changes it (log
  entry 12). -/
  font : Config.Font
  deriving DecidableEq, Repr

/-- The reasons for which a step stops with a fault. The spec's StackFault is none of them: it is state, and taking it
is a next state (R116, R117; log entry 1). -/
inductive Fault where
  /-- Raised by CALL with SP above 16 and by RET with SP above 16: there is no entry S[SP], and the spec says SP never
  leaves 0..16 (R20). Safe: no state that meets the invariant raises it (log entry 2). -/
  | illegalStackPointer
  deriving DecidableEq, Repr

/-- The reasons for which an instruction has no meaning. -/
inductive Refusal where
  /-- Raised by an arm of `exec` that has no meaning yet; no arm of this model does. Safe. -/
  | notModelled (mnemonic : String)
  deriving DecidableEq, Repr

/-- Every cell off (R23, R71). -/
def blankScreen : FrameBuffer := Vector.replicate 32 (Vector.replicate 64 false)

/-- `Reset(seed)` on a machine configured with a font (R127, R128): every field at the value of R130. The memory lists nothing: an unlisted byte reads as
`Reset` leaves it. -/
def State.resetWith (font : Config.Font) (seed : Nat) : State where
  v := Vector.replicate 16 0
  index := 0
  pc := 0x200
  sp := 0
  stack := Vector.replicate 16 0
  dt := 0
  st := 0
  mem := []
  fb := blankScreen
  kp := Vector.replicate 16 false
  rng := ⟨seed, 0⟩
  opcode := 0
  fault := .none
  font := font

/-- The machine with the default font right after `Reset` with the model's seed (R128, R129; log entries 4 and 5). -/
def State.reset : State := State.resetWith Config.font Config.resetSeed

end Sys2Proof.Machine
end

