-- ==== Sys2Proof/Machine/Ops.lean ====
section
/-! DEFINITION. The named operations over memory, registers and the other state (00_scope.md R9), and taking the
StackFault (60_exceptions.md R116). There is no return from it: no instruction clears `fault` (R117, R122). -/

namespace Sys2Proof.Machine

/-! ### Memory (20_memory.md) -/

/-- What an address that is not listed reads as on a machine with this font: the contents after `Reset` (R35, R130; log
entry 6). -/
def unlisted (font : Config.Font) (a : Nat) : Byte := Config.resetByte font a

/-- Every address is reduced modulo 4096 before use, the sum being formed at full width (R36). -/
def memAddr (a : Nat) : Nat := a % Config.memSize

/-- The byte listed for an address, or what the address reads as when it is not listed. -/
def memLookup (font : Config.Font) : Memory → Nat → Byte
  | [], a => unlisted font a
  | (b, w) :: rest, a => if b = a then w else memLookup font rest a

/-- Put a cell into the list at the place its address has. -/
def memInsert (a : Nat) (w : Byte) : Memory → Memory
  | [] => [(a, w)]
  | (b, u) :: rest => if a < b then (a, w) :: (b, u) :: rest else (b, u) :: memInsert a w rest

/-- Write one byte, keeping the canonical form: a byte that an unlisted address would read as is not listed. -/
def memStore (font : Config.Font) (m : Memory) (a : Nat) (w : Byte) : Memory :=
  let others := m.filter fun c => c.1 ≠ a
  if w = unlisted font a then others else memInsert a w others

/-- The canonical form: addresses strictly rising, each below 4096, and no cell equal to what an unlisted address
reads as. -/
abbrev Memory.wf (font : Config.Font) (m : Memory) : Prop :=
  m.Pairwise (fun c d => c.1 < d.1) ∧ ∀ c ∈ m, c.1 < Config.memSize ∧ c.2 ≠ unlisted font c.1

/-- `MemRead(a, 1)` (R9, R36). -/
def State.readByte (s : State) (a : Nat) : Byte := memLookup s.font s.mem (memAddr a)

/-- `MemWrite(a, 1, w)` (R9, R36). -/
def State.writeByte (s : State) (a : Nat) (w : Byte) : State := { s with mem := memStore s.font s.mem (memAddr a) w }

/-- Write bytes one after another at rising addresses (R44). -/
def State.writeBytes (s : State) (a : Nat) : List Byte → State
  | [] => s
  | w :: ws => (s.writeByte a w).writeBytes (a + 1) ws

/-! ### Registers (10_state.md) -/

/-- Read V[x] (R9, R13). -/
def State.getV (s : State) (x : Reg) : Byte := s.v[x]

/-- `V[x] <- b` (R9, R13). -/
def State.setV (s : State) (x : Reg) (b : Byte) : State := { s with v := s.v.set x b }

/-- `I <- w` (R18). -/
def State.setIndex (s : State) (w : Word) : State := { s with index := w }

/-- `PC <- w` (R16). -/
def State.setPc (s : State) (w : Word) : State := { s with pc := w }

/-- `SP <- b` (R20). -/
def State.setSp (s : State) (b : Byte) : State := { s with sp := b }

/-- `S[j] <- w` (R19). -/
def State.setStack (s : State) (j : Fin 16) (w : Word) : State := { s with stack := s.stack.set j w }

/-- `DT <- b` (R21). -/
def State.setDt (s : State) (b : Byte) : State := { s with dt := b }

/-- `ST <- b` (R22). -/
def State.setSt (s : State) (b : Byte) : State := { s with st := b }

/-- Replace the framebuffer (R23). -/
def State.setFb (s : State) (fb : FrameBuffer) : State := { s with fb := fb }

/-- `KP[k] <- pressed`: the host's write (R33). -/
def State.setKey (s : State) (k : Key) (pressed : Bool) : State := { s with kp := s.kp.set k pressed }

/-- Replace the RNG's state (R27). -/
def State.setRng (s : State) (r : Rng) : State := { s with rng := r }

/-- Write the opcode register (R28). -/
def State.setOpcode (s : State) (op : Word) : State := { s with opcode := op }

/-- Write the fault status (R29). -/
def State.setFault (s : State) (c : FaultStatus) : State := { s with fault := c }

/-- The cell FB[r][c] (R9, R23). -/
def State.cell (s : State) (r : Fin 32) (c : Fin 64) : Bool := s.fb[r][c]

/-- The key KP[k] (R9, R25). -/
def State.key (s : State) (k : Key) : Bool := s.kp[k]

/-- Add 2 to PC once more when the condition holds: a skip (R77). -/
def State.skipIf (s : State) (c : Bool) : State := if c then s.setPc (s.pc + 2) else s

/-! ### The call stack (R19, R20) -/

/-- The stack entry that a stack pointer value names; none where there is no such entry. -/
def stackSlot (n : Nat) : Option (Fin 16) := if h : n < 16 then some ⟨n, h⟩ else none

/-! ### The RNG (R27, D7) -/

/-- `RandomByte()` (R9, R98): the next draw, a free value. -/
def State.randomByte (s : State) : Byte := Config.randomByte s.rng.seed s.rng.draws

/-- The RNG after one draw. -/
def State.advanceRng (s : State) : State := s.setRng ⟨s.rng.seed, s.rng.draws + 1⟩

/-! ### The stack fault (R116) -/

/-- `raise StackFault(kind)` (R9, R116): the handler writes nothing else. That the whole cycle commits nothing is
`endCycle` of Machine/Cycle.lean. -/
def raiseStackFault (kind : FaultStatus) (s : State) : State := s.setFault kind

/-- The code of a fault status (R116). -/
def FaultStatus.code : FaultStatus → Nat
  | .none => 0
  | .stackOverflow => 1
  | .stackUnderflow => 2

end Sys2Proof.Machine
end

