-- ==== Sys2Proof/Machine/Cycle.lean ====
section
/-! DEFINITION. The parts of `Cycle()` around EXECUTE (40_cycle_engine.md R63 to R68): FETCH, ADVANCE, the NOP handler,
TICK, and what a StackFault does to the cycle (R116). -/

namespace Sys2Proof.Machine

/-- The big-endian word at PC, each address reduced modulo 4096 (R36, R37, R39). -/
def State.fetchWord (s : State) : Word :=
  opcodeOf (s.readByte s.pc.toNat) (s.readByte (s.pc.toNat + 1))

/-- FETCH: the word at PC goes to the opcode register (R64). -/
def State.fetch (s : State) : State := s.setOpcode s.fetchWord

/-- ADVANCE: `PC <- PC +16 2` (R64). -/
def State.advance (s : State) : State := s.setPc (s.pc + 2)

/-- NOP, the handler of the unknown words: it writes nothing (R67). -/
def execNop (s : State) : Host.Outcome State Fault Refusal := .next s

/-- A timer one tick later: it stops at zero (R68). -/
def tickTimer (b : Byte) : Byte := if b = 0 then 0 else b - 1

/-- TICK TIMERS (R68). -/
def State.tick (s : State) : State := (s.setDt (tickTimer s.dt)).setSt (tickTimer s.st)

/-- The end of a cycle that began in the state `saved` (R63): TICK when EXECUTE completed; when it raised StackFault,
everything but `fault` is as it was before the cycle, and no tick (R116). -/
def endCycle (saved : State) : Host.Outcome State Fault Refusal → Host.Outcome State Fault Refusal
  | .next s => if s.fault = .none then .next s.tick else .next (saved.setFault s.fault)
  | .fault r => .fault r
  | .refused r => .refused r

/-- Place a word where FETCH reads its next one: the high byte at PC, the low byte at PC + 1 (R37). -/
def State.placeWord (s : State) (op : Word) : State :=
  (s.writeByte s.pc.toNat (bytesOf op).1).writeByte (s.pc.toNat + 1) (bytesOf op).2

end Sys2Proof.Machine
end

