-- ==== Sys2Proof/Machine/Flags.lean ====
section
/-! DEFINITION. The flags (10_state.md R15, 43_alu.md R86, R99): what VF becomes. Every flag is 0 or 1. -/

namespace Sys2Proof.Machine

/-- `c ? 1 : 0`. -/
def flagOf (c : Bool) : Byte := if c then 1 else 0

/-- The carry of 8xy4: the 16-bit sum exceeds 255 (R93). -/
def carryFlag (a b : Byte) : Byte := flagOf (a.toNat + b.toNat > 255)

/-- The flag of 8xy5 and 8xy7: the minuend is strictly greater (R94, R96, C4). -/
def greaterFlag (minuend subtrahend : Byte) : Byte := flagOf (minuend > subtrahend)

/-- The bit that 8xy6 shifts out, `a & 1` (R95). -/
def shiftedOutRight (a : Byte) : Byte := a &&& 1

/-- The bit that 8xyE shifts out, `(a >> 7) & 1` (R97). -/
def shiftedOutLeft (a : Byte) : Byte := (a >>> 7) &&& 1

/-- Write a result to V[x] and then the flag to VF: "VF written last", so that the flag survives when x = 0xF (R99). -/
def State.setResultThenFlag (s : State) (x : Reg) (result flag : Byte) : State := (s.setV x result).setV regF flag

end Sys2Proof.Machine
end

