-- ==== Sys2Proof/Machine/Operands.lean ====
section
/-! DEFINITION. The operand forms (30_encoding.md R53, 44_index_memory.md R106): how an instruction makes a value, an
address, a key number or a coordinate out of its fields and the registers. -/

namespace Sys2Proof.Machine

/-- `zext_16(nnn)` (R53). -/
def zextAddr (nnn : Addr) : Word := nnn.setWidth 16

/-- `zext_16(b)` of a register (R85, R101). -/
def zextByte (b : Byte) : Word := b.setWidth 16

/-- The effective address `I + k`, at full width; the access reduces it (R36, R106). -/
def State.indexAddr (s : State) (k : Nat) : Nat := s.index.toNat + k

/-- The address of a font glyph, `0x0050 + 5 × (b & 0xF)` (R102). -/
def glyphAddr (b : Byte) : Word := 0x0050 + 5 * zextByte (b &&& 0xF)

/-- The key number a register selects: its low nibble (R107). -/
def keyOf (b : Byte) : Key := Fin.ofNat 16 (b &&& 0xF).toNat

/-- The start column of a sprite, `V[x] mod 64` (R73). -/
def startColumn (b : Byte) : Nat := b.toNat % 64

/-- The start row of a sprite, `V[y] mod 32` (R73). -/
def startRow (b : Byte) : Nat := b.toNat % 32

/-- The hundreds digit, `v / 100` (R103). -/
def hundreds (b : Byte) : Byte := b / 100

/-- The tens digit, `(v / 10) mod 10` (R103). -/
def tens (b : Byte) : Byte := b / 10 % 10

/-- The ones digit, `v mod 10` (R103). -/
def ones (b : Byte) : Byte := b % 10

/-- The register with a given number (R104, R105: the loop index, which is at most 15). -/
def regOf (n : Nat) : Reg := Fin.ofNat 16 n

/-- The keys in rising order (R110). -/
def allKeys : List Key := [0, 1, 2, 3, 4, 5, 6, 7, 8, 9, 10, 11, 12, 13, 14, 15]

/-- The lowest pressed key, if there is one (R110). -/
def State.lowestKey (s : State) : Option Key := allKeys.find? s.key

/-- A key number as a register value (R110). -/
def keyByte (k : Key) : Byte := BitVec.ofNat 8 k

end Sys2Proof.Machine
end

