-- ==== Sys2Proof/Machine/Alu.lean ====
section
/-! DEFINITION. The register and ALU instructions (43_alu.md R86 to R99). Operands are read before anything is written,
arithmetic is modulo 256 (R86), and VF is written last (R99). -/

namespace Sys2Proof.Machine

/-- 6xkk LD Vx,kk (R87). -/
def execLdVxKk (x : Reg) (kk : Byte) (s : State) : Host.Outcome State Fault Refusal :=
  .next (s.setV x kk)

/-- 7xkk ADD Vx,kk (R88): no flag. -/
def execAddVxKk (x : Reg) (kk : Byte) (s : State) : Host.Outcome State Fault Refusal :=
  .next (s.setV x (s.getV x + kk))

/-- 8xy0 LD Vx,Vy (R89). -/
def execLdVxVy (x y : Reg) (s : State) : Host.Outcome State Fault Refusal :=
  .next (s.setV x (s.getV y))

/-- 8xy1 OR Vx,Vy (R90): VF is not reset (D5). -/
def execOrVxVy (x y : Reg) (s : State) : Host.Outcome State Fault Refusal :=
  .next (s.setV x (s.getV x ||| s.getV y))

/-- 8xy2 AND Vx,Vy (R91): VF is not reset (D5). -/
def execAndVxVy (x y : Reg) (s : State) : Host.Outcome State Fault Refusal :=
  .next (s.setV x (s.getV x &&& s.getV y))

/-- 8xy3 XOR Vx,Vy (R92): VF is not reset (D5). -/
def execXorVxVy (x y : Reg) (s : State) : Host.Outcome State Fault Refusal :=
  .next (s.setV x (s.getV x ^^^ s.getV y))

/-- 8xy4 ADD Vx,Vy (R93): VF is the carry. -/
def execAddVxVy (x y : Reg) (s : State) : Host.Outcome State Fault Refusal :=
  .next (s.setResultThenFlag x (s.getV x + s.getV y) (carryFlag (s.getV x) (s.getV y)))

/-- 8xy5 SUB Vx,Vy (R94): VF is 1 iff V[x] > V[y]. -/
def execSubVxVy (x y : Reg) (s : State) : Host.Outcome State Fault Refusal :=
  .next (s.setResultThenFlag x (s.getV x - s.getV y) (greaterFlag (s.getV x) (s.getV y)))

/-- 8xy6 SHR Vx (R95): y is not read. -/
def execShrVx (x : Reg) (s : State) : Host.Outcome State Fault Refusal :=
  .next (s.setResultThenFlag x (s.getV x >>> 1) (shiftedOutRight (s.getV x)))

/-- 8xy7 SUBN Vx,Vy (R96): VF is 1 iff V[y] > V[x]. -/
def execSubnVxVy (x y : Reg) (s : State) : Host.Outcome State Fault Refusal :=
  .next (s.setResultThenFlag x (s.getV y - s.getV x) (greaterFlag (s.getV y) (s.getV x)))

/-- 8xyE SHL Vx (R97): y is not read. -/
def execShlVx (x : Reg) (s : State) : Host.Outcome State Fault Refusal :=
  .next (s.setResultThenFlag x (s.getV x <<< 1) (shiftedOutLeft (s.getV x)))

/-- Cxkk RND Vx,kk (R98): the random byte is a free value (D7; log entry 3). -/
def execRnd (x : Reg) (kk : Byte) (s : State) : Host.Outcome State Fault Refusal :=
  .next (s.advanceRng.setV x (s.randomByte &&& kk))

end Sys2Proof.Machine
end

