-- ==== Sys2Proof/Machine/Control.lean ====
section
/-! DEFINITION. The control-flow instructions (42_control_flow.md R77 to R85). PC is already the address of the current
instruction plus 2 (R64). -/

namespace Sys2Proof.Machine

/-- 00EE RET (R78): StackUnderflow when SP = 0 (R116); otherwise SP goes down and PC is the entry it then names, which
keeps its value. SP above 16 names no entry (log entry 2). -/
def execRet (s : State) : Host.Outcome State Fault Refusal :=
  if s.sp = 0 then .next (raiseStackFault .stackUnderflow s)
  else match stackSlot (s.sp - 1).toNat with
    | some j => .next ((s.setSp (s.sp - 1)).setPc s.stack[j])
    | none => .fault .illegalStackPointer

/-- 1nnn JP nnn (R79). -/
def execJp (nnn : Addr) (s : State) : Host.Outcome State Fault Refusal :=
  .next (s.setPc (zextAddr nnn))

/-- 2nnn CALL nnn (R80): StackOverflow when SP = 16 (R116); otherwise the entry SP names takes PC, SP goes up and PC is
nnn. SP above 16 names no entry (log entry 2). -/
def execCall (nnn : Addr) (s : State) : Host.Outcome State Fault Refusal :=
  if s.sp = 16 then .next (raiseStackFault .stackOverflow s)
  else match stackSlot s.sp.toNat with
    | some j => .next (((s.setStack j s.pc).setSp (s.sp + 1)).setPc (zextAddr nnn))
    | none => .fault .illegalStackPointer

/-- 3xkk SE Vx,kk (R81). -/
def execSeVxKk (x : Reg) (kk : Byte) (s : State) : Host.Outcome State Fault Refusal :=
  .next (s.skipIf (s.getV x == kk))

/-- 4xkk SNE Vx,kk (R82). -/
def execSneVxKk (x : Reg) (kk : Byte) (s : State) : Host.Outcome State Fault Refusal :=
  .next (s.skipIf (s.getV x != kk))

/-- 5xy0 SE Vx,Vy (R83). -/
def execSeVxVy (x y : Reg) (s : State) : Host.Outcome State Fault Refusal :=
  .next (s.skipIf (s.getV x == s.getV y))

/-- 9xy0 SNE Vx,Vy (R84). -/
def execSneVxVy (x y : Reg) (s : State) : Host.Outcome State Fault Refusal :=
  .next (s.skipIf (s.getV x != s.getV y))

/-- Bnnn JP V0,nnn (R85): the register added is always V0, and the target is not reduced. -/
def execJpV0 (nnn : Addr) (s : State) : Host.Outcome State Fault Refusal :=
  .next (s.setPc (zextAddr nnn + zextByte (s.getV 0)))

end Sys2Proof.Machine
end

