-- ==== Sys2Proof/Machine/Display.lean ====
section
/-! DEFINITION. The display instructions (41_display.md R71 to R76): CLS and DRW. -/

namespace Sys2Proof.Machine

/-- One sprite bit of 1 at (row, col), given the framebuffer and whether a collision has happened: clipped past the
right and bottom edges (R74); otherwise the cell toggles, and a cell that was on is a collision (R75). -/
def plot (row col : Nat) (d : FrameBuffer × Bool) : FrameBuffer × Bool :=
  if h : row < 32 ∧ col < 64 then
    if d.1[row][col] then (d.1.set row (d.1[row].set col false), true)
    else (d.1.set row (d.1[row].set col true), d.2)
  else d

/-- The first k bits of a sprite row, in order: bit c of the loop is bit 7 − c of the byte (R72). -/
def plotBits (b : Byte) (row c0 : Nat) : Nat → FrameBuffer × Bool → FrameBuffer × Bool
  | 0, d => d
  | c + 1, d =>
    let d' := plotBits b row c0 c d
    if b.getLsbD (7 - c) then plot row (c0 + c) d' else d'

/-- The first n rows of a sprite, in order: row r is the byte at I + r (R72, R76). -/
def plotRows (s : State) (r0 c0 : Nat) : Nat → FrameBuffer × Bool
  | 0 => (s.fb, false)
  | r + 1 => plotBits (s.readByte (s.indexAddr r)) (r0 + r) c0 8 (plotRows s r0 c0 r)

/-- 00E0 CLS: every cell off (R71). -/
def execCls (s : State) : Host.Outcome State Fault Refusal :=
  .next (s.setFb blankScreen)

/-- Dxyn DRW Vx,Vy,n (R72): the start coordinates are read before VF is written (R73, D6); VF is 1 if some drawn pixel
was already on and 0 otherwise (R75). -/
def execDrw (x y : Reg) (n : Fin 16) (s : State) : Host.Outcome State Fault Refusal :=
  let drawn := plotRows s (startRow (s.getV y)) (startColumn (s.getV x)) n
  .next ((s.setFb drawn.1).setV regF (flagOf drawn.2))

end Sys2Proof.Machine
end

