-- ==== Sys2Proof/Machine/IndexMemory.lean ====
section
/-! DEFINITION. The index-register and memory instructions (44_index_memory.md R100 to R106). No access changes I. -/

namespace Sys2Proof.Machine

/-- Annn LD I,nnn (R100). -/
def execLdI (nnn : Addr) (s : State) : Host.Outcome State Fault Refusal :=
  .next (s.setIndex (zextAddr nnn))

/-- Fx1E ADD I,Vx (R101): 16-bit sum, no flag. -/
def execAddIVx (x : Reg) (s : State) : Host.Outcome State Fault Refusal :=
  .next (s.setIndex (s.index + zextByte (s.getV x)))

/-- Fx29 LD F,Vx (R102). -/
def execLdFVx (x : Reg) (s : State) : Host.Outcome State Fault Refusal :=
  .next (s.setIndex (glyphAddr (s.getV x)))

/-- Fx33 LD B,Vx (R103): hundreds, tens, ones at I, I + 1, I + 2. -/
def execLdBVx (x : Reg) (s : State) : Host.Outcome State Fault Refusal :=
  let b := s.getV x
  .next (s.writeBytes (s.indexAddr 0) [hundreds b, tens b, ones b])

/-- V[0]..V[n−1] as bytes in rising order of the register. -/
def State.firstRegs (s : State) (n : Nat) : List Byte := (List.range n).map fun i => s.getV (regOf i)

/-- Fx55 LD [I],Vx (R104): M[I + i] ← V[i] for i = 0..x, in order. -/
def execLdMemVx (x : Reg) (s : State) : Host.Outcome State Fault Refusal :=
  .next (s.writeBytes (s.indexAddr 0) (s.firstRegs (x + 1)))

/-- V[i] ← M[I + i] for the first n registers, in order (R105). -/
def State.loadRegs (s : State) : Nat → State
  | 0 => s
  | i + 1 => (s.loadRegs i).setV (regOf i) ((s.loadRegs i).readByte ((s.loadRegs i).indexAddr i))

/-- Fx65 LD Vx,[I] (R105): V[i] ← M[I + i] for i = 0..x. -/
def execLdVxMem (x : Reg) (s : State) : Host.Outcome State Fault Refusal :=
  .next (s.loadRegs (x + 1))

end Sys2Proof.Machine
end

