-- ==== Sys2Proof/Machine/KeypadTimers.lean ====
section
/-! DEFINITION. The keypad and timer instructions (45_keypad_timers.md R107 to R113). The tick of the same cycle comes
after them (R68), in Machine/Cycle.lean. -/

namespace Sys2Proof.Machine

/-- Ex9E SKP Vx (R107). -/
def execSkp (x : Reg) (s : State) : Host.Outcome State Fault Refusal :=
  .next (s.skipIf (s.key (keyOf (s.getV x))))

/-- ExA1 SKNP Vx (R108). -/
def execSknp (x : Reg) (s : State) : Host.Outcome State Fault Refusal :=
  .next (s.skipIf (!s.key (keyOf (s.getV x))))

/-- Fx07 LD Vx,DT (R109): DT as the previous cycle left it. -/
def execLdVxDt (x : Reg) (s : State) : Host.Outcome State Fault Refusal :=
  .next (s.setV x s.dt)

/-- Fx0A LD Vx,K (R110): the lowest pressed key, or back to this instruction when no key is pressed. -/
def execLdVxK (x : Reg) (s : State) : Host.Outcome State Fault Refusal :=
  match s.lowestKey with
  | some k => .next (s.setV x (keyByte k))
  | none => .next (s.setPc (s.pc - 2))

/-- Fx15 LD DT,Vx (R111). -/
def execLdDtVx (x : Reg) (s : State) : Host.Outcome State Fault Refusal :=
  .next (s.setDt (s.getV x))

/-- Fx18 LD ST,Vx (R112). -/
def execLdStVx (x : Reg) (s : State) : Host.Outcome State Fault Refusal :=
  .next (s.setSt (s.getV x))

end Sys2Proof.Machine
end

