-- ==== Sys2Proof/Machine/Step.lean ====
section
/-! DEFINITION. `Cycle()`, the one step of the machine (40_cycle_engine.md R63). -/

namespace Sys2Proof.Machine

/-- EXECUTE of what a word decodes to (R65, R66). -/
def execHandler (h : Handler) (s : State) : Host.Outcome State Fault Refusal :=
  match h with
  | .instr i => exec i s
  | .nop _ => execNop s

/-- `Cycle()` (R63): FETCH, ADVANCE, DECODE, EXECUTE, TICK. While the block is Faulted it changes nothing (R117). -/
def step (s : State) : Host.Outcome State Fault Refusal :=
  if s.fault = .none then
    endCycle s (execHandler (decode s.fetchWord) s.fetch.advance)
  else .next s

/-- The state with the instruction of bits w placed where the next Cycle fetches: the two bytes at PC. A Faulted block
fetches nothing, so the fault status is None (log entry 9). -/
def State.withFetchWord (s : State) (nbits w : Nat) : State :=
  (s.placeWord (tableWord nbits w)).setFault .none

end Sys2Proof.Machine
end

