-- ==== Sys2Proof/Machine/HostOps.lean ====
section
/-! DEFINITION. The host operations (10_state.md R32 to R34; 20_memory.md R44; 70_reset_and_hazards.md R127, R133). Each
runs to completion before the next one starts, so a use of the block is a list of operations. -/

namespace Sys2Proof.Machine

/-- `LoadRom(bytes)` (R44): at most 3584 bytes, the first at M[0x200]; nothing else changes. -/
def State.loadRom (s : State) (bytes : List Byte) : State :=
  s.writeBytes Config.programBase (bytes.take Config.romLimit)

/-- `WriteKey(k, pressed)` (R33). -/
def State.writeKey (s : State) (k : Key) (pressed : Bool) : State := s.setKey k pressed

/-- `ReadFB()`: the 2048 cells, row-major, the cell (r, c) at the flat index r × 64 + c (R23). -/
def State.readFB (s : State) : Vector Bool 2048 :=
  Vector.ofFn fun k => s.cell ⟨k / 64, by omega⟩ ⟨k % 64, by omega⟩

/-- The cells as the renderer's constants CELL_ON and CELL_OFF, which are parameters of the host and distinct (R24,
D9; log entry 7). -/
def State.renderFB {α : Type} (cells : Config.CellConstants α) (s : State) : Vector α 2048 :=
  s.readFB.map fun c => if c then cells.on else cells.off

/-- `ReadST()` (R22). -/
def State.readST (s : State) : Byte := s.st

/-- `ReadFault()` (R29). -/
def State.readFault (s : State) : FaultStatus := s.fault

/-- The host operations (R32). -/
inductive HostOp where
  | reset (seed : Nat)
  | loadRom (bytes : List Byte)
  | cycle
  | writeKey (k : Key) (pressed : Bool)
  | readFB
  | readST
  | readFault
  deriving DecidableEq, Repr

/-- What an operation returns to the host (R32). -/
inductive Reply where
  | done
  | cells (fb : Vector Bool 2048)
  | soundTimer (st : Byte)
  | faultStatus (fault : FaultStatus)
  deriving DecidableEq, Repr

/-- The state after an operation (R32). Reset forgets the state it is applied in and keeps the configuration (R127); the reads change nothing. -/
def hostApply (op : HostOp) (s : State) : Host.Outcome State Fault Refusal :=
  match op with
  | .reset seed => .next (State.resetWith s.font seed)
  | .loadRom bytes => .next (s.loadRom bytes)
  | .cycle => step s
  | .writeKey k pressed => .next (s.writeKey k pressed)
  | .readFB => .next s
  | .readST => .next s
  | .readFault => .next s

/-- The reply of an operation applied in a state (R32). -/
def hostReply (op : HostOp) (s : State) : Reply :=
  match op with
  | .reset _ => .done
  | .loadRom _ => .done
  | .cycle => .done
  | .writeKey _ _ => .done
  | .readFB => .cells s.readFB
  | .readST => .soundTimer s.readST
  | .readFault => .faultStatus s.readFault

/-- A use of the block: operations one after another (R34, R133). -/
def hostRun : List HostOp → State → Host.Outcome State Fault Refusal
  | [], s => .next s
  | op :: ops, s =>
    match hostApply op s with
    | .next s' => hostRun ops s'
    | .fault r => .fault r
    | .refused r => .refused r

end Sys2Proof.Machine
end

