-- ==== Sys2Proof/Safety.lean ====
section
/-! DEFINITION. What counts as a safe run: the invariant that every operation keeps, and success, which a Faulted
block never has (60_exceptions.md R117, D20). -/

namespace Sys2Proof.Machine

/-- The invariant: M is in canonical form; SP is in 0..16 (R20); a recorded overflow has a full stack and a recorded
underflow an empty one (R116). -/
structure State.Inv (s : State) : Prop where
  mem_wf : Memory.wf s.font s.mem
  sp_le : s.sp.toNat ≤ 16
  overflow_full : s.fault = .stackOverflow → s.sp = 16
  underflow_empty : s.fault = .stackUnderflow → s.sp = 0

/-- The block is Faulted (R29, R117). -/
abbrev State.Faulted (s : State) : Prop := s.fault ≠ .none

/-- The end of a run is a success only if the block is not Faulted: "A model treats the Faulted state as a fault and
never as a final or successful state" (R117). -/
def Succeeds : Host.Outcome State Fault Refusal → Prop
  | .next s => ¬ s.Faulted
  | .fault _ => False
  | .refused _ => False

/-- The mask of a sprite (R75): an unclipped sprite bit of 1 falls on the cell (row, col). Row r of the n rows is the byte
at I + r, its bit 7 − c is the pixel c columns to the right of the start (R72), and the cell is on the screen because
row and col are (R74). -/
def State.SpriteCovers (s : State) (x y : Reg) (n : Fin 16) (row : Fin 32) (col : Fin 64) : Prop :=
  ∃ r c : Nat, r < n.val ∧ c < 8 ∧ (s.readByte (s.index.toNat + r)).getLsbD (7 - c) = true ∧
    row.val = (s.getV y).toNat % 32 + r ∧ col.val = (s.getV x).toNat % 64 + c

/-- A run of host operations is safe when it succeeds from the state it starts in. -/
def SafeRun (ops : List HostOp) (s : State) : Prop := Succeeds (hostRun ops s)

end Sys2Proof.Machine
end

