-- ==== Sys2Proof/Certificates/Slice0/Obligations.lean ====
section
/-! DEFINITION. The statements for the provers, from the numbered rules of spec/. Where a statement is the model's own
choice its docstring says so and names the log entry. -/

namespace Sys2Proof.Machine

/-! ### Which words decode to an instruction, written on the word's number

The opcode's fields are `op[15:12] = op / 4096`, `x = op / 256 mod 16`, `y = op / 16 mod 16`, `n = op mod 16`,
`kk = op mod 256`, `nnn = op mod 4096` (R8, R10); `Fin.ofNat 16` and `BitVec.ofNat` reduce. -/

/-- Every word with op[15:12] = o decodes to f of nnn. -/
def WordsA (o : Nat) (f : Addr → Instr) : Prop :=
  ∀ op : Word, op.toNat / 4096 = o → decode op = .instr (f (BitVec.ofNat 12 op.toNat))

/-- Every word with op[15:12] = o decodes to f of x and kk. -/
def WordsXK (o : Nat) (f : Reg → Byte → Instr) : Prop :=
  ∀ op : Word, op.toNat / 4096 = o →
    decode op = .instr (f (Fin.ofNat 16 (op.toNat / 256)) (BitVec.ofNat 8 op.toNat))

/-- Every word with op[15:12] = o decodes to f of x and y, whatever op[3:0] is. -/
def WordsXY (o : Nat) (f : Reg → Reg → Instr) : Prop :=
  ∀ op : Word, op.toNat / 4096 = o →
    decode op = .instr (f (Fin.ofNat 16 (op.toNat / 256)) (Fin.ofNat 16 (op.toNat / 16)))

/-- Every word with op[15:12] = o and op[3:0] = n decodes to f of x and y. -/
def WordsXYS (o n : Nat) (f : Reg → Reg → Instr) : Prop :=
  ∀ op : Word, op.toNat / 4096 = o → op.toNat % 16 = n →
    decode op = .instr (f (Fin.ofNat 16 (op.toNat / 256)) (Fin.ofNat 16 (op.toNat / 16)))

/-- Every word with op[15:12] = o decodes to f of x, y and n. -/
def WordsXYN (o : Nat) (f : Reg → Reg → Fin 16 → Instr) : Prop :=
  ∀ op : Word, op.toNat / 4096 = o →
    decode op = .instr (f (Fin.ofNat 16 (op.toNat / 256)) (Fin.ofNat 16 (op.toNat / 16)) (Fin.ofNat 16 op.toNat))

/-- Every word with op[15:12] = o and op[7:0] = ss decodes to f of x. -/
def WordsX (o ss : Nat) (f : Reg → Instr) : Prop :=
  ∀ op : Word, op.toNat / 4096 = o → op.toNat % 256 = ss →
    decode op = .instr (f (Fin.ofNat 16 (op.toNat / 256)))

/-- Every word with op[15:12] = 0 and op[3:0] = n decodes to i, whatever op[11:4] is. -/
def WordsZ (n : Nat) (i : Instr) : Prop :=
  ∀ op : Word, op.toNat / 4096 = 0 → op.toNat % 16 = n → decode op = .instr i

/-! ### Frames -/

/-- The registers an instruction may write (R14, R15). -/
def Writes (r : Reg) : Instr → Prop
  | .cls => False
  | .ret => False
  | .jp _ => False
  | .call _ => False
  | .seVxKk _ _ => False
  | .sneVxKk _ _ => False
  | .seVxVy _ _ => False
  | .ldVxKk x _ => r = x
  | .addVxKk x _ => r = x
  | .ldVxVy x _ => r = x
  | .orVxVy x _ => r = x
  | .andVxVy x _ => r = x
  | .xorVxVy x _ => r = x
  | .addVxVy x _ => r = x ∨ r = 15
  | .subVxVy x _ => r = x ∨ r = 15
  | .shrVx x _ => r = x ∨ r = 15
  | .subnVxVy x _ => r = x ∨ r = 15
  | .shlVx x _ => r = x ∨ r = 15
  | .sneVxVy _ _ => False
  | .ldI _ => False
  | .jpV0 _ => False
  | .rnd x _ => r = x
  | .drw _ _ _ => r = 15
  | .skp _ => False
  | .sknp _ => False
  | .ldVxDt x => r = x
  | .ldVxK x => r = x
  | .ldDtVx _ => False
  | .ldStVx _ => False
  | .addIVx _ => False
  | .ldFVx _ => False
  | .ldBVx _ => False
  | .ldMemVx _ => False
  | .ldVxMem x => r ≤ x

/-- The instructions that may leave PC elsewhere than after themselves (R17): the branches, the skips and Fx0A. -/
def MayBranch : Instr → Prop
  | .ret => True
  | .jp _ => True
  | .call _ => True
  | .jpV0 _ => True
  | .seVxKk _ _ => True
  | .sneVxKk _ _ => True
  | .seVxVy _ _ => True
  | .sneVxVy _ _ => True
  | .skp _ => True
  | .sknp _ => True
  | .ldVxK _ => True
  | .cls => False
  | .ldVxKk _ _ => False
  | .addVxKk _ _ => False
  | .ldVxVy _ _ => False
  | .orVxVy _ _ => False
  | .andVxVy _ _ => False
  | .xorVxVy _ _ => False
  | .addVxVy _ _ => False
  | .subVxVy _ _ => False
  | .shrVx _ _ => False
  | .subnVxVy _ _ => False
  | .shlVx _ _ => False
  | .ldI _ => False
  | .rnd _ _ => False
  | .drw _ _ _ => False
  | .ldVxDt _ => False
  | .ldDtVx _ => False
  | .ldStVx _ => False
  | .addIVx _ => False
  | .ldFVx _ => False
  | .ldBVx _ => False
  | .ldMemVx _ => False
  | .ldVxMem _ => False

/-- i, run in s, answers a next state in which VF is the flag, V[x] is the result unless x = 0xF, and nothing else
changes: "VF written last" (R99). -/
def WritesFlagLast (i : Instr) (s : State) (x : Reg) (result : Nat) (flag : Prop) : Prop :=
  ∃ t, exec i s = .next t ∧ (flag → t.getV 15 = 1) ∧ (¬flag → t.getV 15 = 0) ∧
    (x ≠ 15 → (t.getV x).toNat = result) ∧ (∀ r, r ≠ x → r ≠ 15 → t.getV r = s.getV r) ∧ t = { s with v := t.v }

/-- A run of m + 1 cycles, none of which faults: cycle j takes `run j` to `run (j + 1)`. -/
def Cycles (run : Nat → State) (m : Nat) : Prop :=
  ∀ j, j ≤ m → step (run j) = .next (run (j + 1)) ∧ (run j).fault = .none ∧ (run (j + 1)).fault = .none

end Sys2Proof.Machine

open Sys2Proof Sys2Proof.Machine

/-! ### Reset and the invariant -/

/-- After `Reset(seed)` on a machine configured with any font, for every seed, every piece of state but the RNG holds the
value R130 gives it: glyph d of the font lies at 0x050 + 5d (R129), and M is zero outside 0x050..0x09F. (The RNG's state
is an OPEN parameter: nothing is said of it.) The host's Reset is that, with the machine's font. -/
def Obligations.ResetLeavesTheStatedValues : Prop :=
  (∀ (s : State) (seed : Nat), hostApply (.reset seed) s = .next (State.resetWith s.font seed)) ∧
  ∀ (font : Config.Font) (seed : Nat), let s := State.resetWith font seed
    s.font = font ∧ s.pc = 0x200 ∧ s.sp = 0 ∧ s.index = 0 ∧ s.dt = 0 ∧ s.st = 0 ∧ s.opcode = 0 ∧ s.fault = .none ∧
    (∀ r, s.getV r = 0) ∧ (∀ j : Fin 16, s.stack[j] = 0) ∧ (∀ k, s.key k = false) ∧
    (∀ r c, s.cell r c = false) ∧
    (∀ (d : Fin 16) (j : Fin 5), s.readByte (0x050 + 5 * d.val + j.val) = font[5 * d.val + j.val]'(by omega)) ∧
    ∀ a, a < 4096 → (a < 0x050 ∨ 0x0A0 ≤ a) → s.readByte a = 0

/-- The state after `Reset` meets the invariant, for every font and every seed. -/
def Obligations.ResetMeetsTheInvariant : Prop := ∀ font seed, (State.resetWith font seed).Inv

/-- FONT is configuration (R6, R129): no host operation, Reset and Cycle among them, changes it. That State carries it is
the model's own choice (log entry 12). -/
def Obligations.TheFontIsConfiguration : Prop :=
  ∀ (op : HostOp) (s t : State), hostApply op s = .next t → t.font = s.font

/-- Every step keeps the invariant: M in canonical form, SP in 0..16 (R20), and a recorded StackFault beside the SP
that raised it (R116). -/
def Obligations.EveryStepKeepsTheInvariant : Prop := ∀ s t : State, s.Inv → step s = .next t → t.Inv

/-- Every host operation keeps the invariant: Reset, LoadRom, Cycle, WriteKey and the reads (R32). -/
def Obligations.EveryHostOperationKeepsTheInvariant : Prop :=
  ∀ (op : HostOp) (s t : State), s.Inv → hostApply op s = .next t → t.Inv

/-- From every state that meets the invariant a cycle completes: no step of a reachable state stops (R69, R114). -/
def Obligations.EveryCycleCompletesFromALegalState : Prop := ∀ s : State, s.Inv → ∃ t, step s = .next t

/-- No step is refused, and a step stops only with SP above 16, which R20 excludes. That it then stops is the model's
own choice (log entry 2). -/
def Obligations.StepsStopOnlyOnAnIllegalStackPointer : Prop :=
  (∀ s r, step s ≠ .refused r) ∧ ∀ s f, step s = .fault f → 16 < s.sp.toNat

/-- CALL and RET with SP above 16 stop with the model's own fault: there is no entry S[SP] (log entry 2, DESIGN
CHOICE). -/
def Obligations.CallAndRetStopAboveTheStack : Prop :=
  ∀ s : State, 16 < s.sp.toNat →
    (∀ nnn, exec (.call nnn) s = .fault .illegalStackPointer) ∧ exec .ret s = .fault .illegalStackPointer

/-! ### Encoding and decoding -/

/-- Decoding the encoding of an instruction gives it back, for every instruction and every value of every field. -/
def Obligations.DecodeOfEncodeIsTheInstruction : Prop :=
  ∀ i : Instr, decode (encode i) = .instr i ∧ decodeBytes (encodeBytes i) = some (.instr i, [])

/-- The words of the source's scenarios S1 to S6 and of some vectors decode to what they stand for. -/
def Obligations.WorkedExampleWordsDecode : Prop :=
  decode 0x8014 = .instr (.addVxVy 0 1) ∧ decode 0x8015 = .instr (.subVxVy 0 1) ∧
  decode 0xB200 = .instr (.jpV0 0x200) ∧ decode 0xF229 = .instr (.ldFVx 2) ∧ decode 0xF033 = .instr (.ldBVx 0) ∧
  decode 0xD015 = .instr (.drw 0 1 5) ∧ decode 0x0ABE = .instr .ret ∧ decode 0x8008 = .nop .t8

/-- The primary table (R54): the words with op[15:12] = 0, 8, E, F go to T0, T8, TE, TF; every other value has its
handler, and 5xyn and 9xyn do not examine op[3:0]. -/
def Obligations.PrimaryTableDecodes : Prop :=
  (∀ op : Word, op.toNat / 4096 = 0 → decode op = decodeT0 op) ∧
  WordsA 1 .jp ∧ WordsA 2 .call ∧ WordsXK 3 .seVxKk ∧ WordsXK 4 .sneVxKk ∧ WordsXY 5 .seVxVy ∧
  WordsXK 6 .ldVxKk ∧ WordsXK 7 .addVxKk ∧
  (∀ op : Word, op.toNat / 4096 = 8 → decode op = decodeT8 op) ∧
  WordsXY 9 .sneVxVy ∧ WordsA 10 .ldI ∧ WordsA 11 .jpV0 ∧ WordsXK 12 .rnd ∧ WordsXYN 13 .drw ∧
  (∀ op : Word, op.toNat / 4096 = 14 → decode op = decodeTE op) ∧
  ∀ op : Word, op.toNat / 4096 = 15 → decode op = decodeTF op

/-- The four sub-tables (R55 to R58), and NOP for every other value of their keys. -/
def Obligations.SubTablesDecode : Prop :=
  WordsZ 0x0 .cls ∧ WordsZ 0xE .ret ∧
  (∀ op : Word, op.toNat / 4096 = 0 → op.toNat % 16 ∉ [0x0, 0xE] → decode op = .nop .t0) ∧
  WordsXYS 8 0x0 .ldVxVy ∧ WordsXYS 8 0x1 .orVxVy ∧ WordsXYS 8 0x2 .andVxVy ∧ WordsXYS 8 0x3 .xorVxVy ∧
  WordsXYS 8 0x4 .addVxVy ∧ WordsXYS 8 0x5 .subVxVy ∧ WordsXYS 8 0x6 .shrVx ∧ WordsXYS 8 0x7 .subnVxVy ∧
  WordsXYS 8 0xE .shlVx ∧
  (∀ op : Word, op.toNat / 4096 = 8 → op.toNat % 16 ∈ [0x8, 0x9, 0xA, 0xB, 0xC, 0xD, 0xF] → decode op = .nop .t8) ∧
  WordsX 14 0x9E .skp ∧ WordsX 14 0xA1 .sknp ∧
  (∀ op : Word, op.toNat / 4096 = 14 → op.toNat % 256 ∉ [0x9E, 0xA1] → decode op = .nop .te) ∧
  WordsX 15 0x07 .ldVxDt ∧ WordsX 15 0x0A .ldVxK ∧ WordsX 15 0x15 .ldDtVx ∧ WordsX 15 0x18 .ldStVx ∧
  WordsX 15 0x1E .addIVx ∧ WordsX 15 0x29 .ldFVx ∧ WordsX 15 0x33 .ldBVx ∧ WordsX 15 0x55 .ldMemVx ∧
  WordsX 15 0x65 .ldVxMem ∧
  ∀ op : Word, op.toNat / 4096 = 15 →
    op.toNat % 256 ∉ [0x07, 0x0A, 0x15, 0x18, 0x1E, 0x29, 0x33, 0x55, 0x65] → decode op = .nop .tf

/-- An alias runs exactly as the canonical word (R60): the ignored bits change neither the decoding of 0zz0, 0zzE, 5xyn
and 9xyn nor what SHR and SHL do. -/
def Obligations.AliasWordsRunAsTheCanonicalWord : Prop :=
  (∀ op : Word, op.toNat / 4096 = 0 → op.toNat % 16 = 0 → decode op = decode 0x00E0) ∧
  (∀ op : Word, op.toNat / 4096 = 0 → op.toNat % 16 = 14 → decode op = decode 0x00EE) ∧
  (∀ op : Word, op.toNat / 4096 = 5 ∨ op.toNat / 4096 = 9 → decode op = decode (BitVec.ofNat 16 (op.toNat / 16 * 16))) ∧
  ∀ (x y : Reg) (s : State), exec (.shrVx x y) s = exec (.shrVx x 0) s ∧ exec (.shlVx x y) s = exec (.shlVx x 0) s

/-! ### The cycle -/

/-- `Cycle()` (R63, R64): with the word `{M[PC], M[PC+1]}`, each address modulo 4096, in the opcode register and PC + 2
in PC, the decoded instruction runs; when it completes, each timer that is not zero goes down by one; when it raises
StackFault, everything but `fault` is as before the cycle. Unknown words run NOP. While Faulted nothing changes. -/
def Obligations.StepRunsTheDecodedInstruction : Prop :=
  ∀ s : State, (s.fault ≠ .none → step s = .next s) ∧
    (s.fault = .none →
      let op : Word := BitVec.ofNat 16
        ((s.readByte (s.pc.toNat % 4096)).toNat * 256 + (s.readByte ((s.pc.toNat + 1) % 4096)).toNat)
      let started : State := { s with opcode := op, pc := BitVec.ofNat 16 (s.pc.toNat + 2) }
      let ticked (t : State) : State :=
        { t with dt := if t.dt = 0 then 0 else t.dt - 1, st := if t.st = 0 then 0 else t.st - 1 }
      (∀ why, decode op = .nop why → step s = .next (ticked started)) ∧
      ∀ i, decode op = .instr i →
        step s = match exec i started with
          | .next t => if t.fault = .none then .next (ticked t) else .next { s with fault := t.fault }
          | .fault r => .fault r
          | .refused r => .refused r)

/-- An unknown word runs as NOP (R67): PC moves by 2, the timers tick, the opcode register takes the word, and nothing
else changes. -/
def Obligations.UnknownWordIsANoOp : Prop :=
  ∀ (s : State) (why : Unknown), s.fault = .none → decode s.fetchWord = .nop why →
    step s = .next { s with
      opcode := s.fetchWord
      pc := s.pc + 2
      dt := if s.dt = 0 then 0 else s.dt - 1
      st := if s.st = 0 then 0 else s.st - 1 }

/-- TICK (R68): at the end of a cycle that completes, each timer is one less than the value the handler left, and stops
at zero; the handler changes DT only when it is Fx15 and ST only when it is Fx18. A cycle that raises StackFault and a
cycle while Faulted do not tick. -/
def Obligations.TimersTickOncePerCompletedCycle : Prop :=
  (∀ s t : State, s.fault = .none → step s = .next t → t.fault = .none →
    (∀ x, decode s.fetchWord = .instr (.ldDtVx x) → t.dt.toNat = (s.getV x).toNat - 1) ∧
    ((∀ x, decode s.fetchWord ≠ .instr (.ldDtVx x)) → t.dt.toNat = s.dt.toNat - 1) ∧
    (∀ x, decode s.fetchWord = .instr (.ldStVx x) → t.st.toNat = (s.getV x).toNat - 1) ∧
    ((∀ x, decode s.fetchWord ≠ .instr (.ldStVx x)) → t.st.toNat = s.st.toNat - 1)) ∧
  ∀ s t : State, step s = .next t → t.fault ≠ .none → t.dt = s.dt ∧ t.st = s.st

/-- The countdown (R113): if cycle 0 executes Fx15 (Fx18) with the value v and no cycle up to m writes the timer again,
then after cycle j the timer holds max(v − 1 − j, 0). -/
def Obligations.SetTimerCountsDownToZero : Prop :=
  ∀ (run : Nat → State) (m : Nat) (x : Reg), Cycles run m →
    (decode (run 0).fetchWord = .instr (.ldDtVx x) →
      (∀ j, 1 ≤ j → j ≤ m → ∀ y, decode (run j).fetchWord ≠ .instr (.ldDtVx y)) →
      ∀ j, j ≤ m → (run (j + 1)).dt.toNat = ((run 0).getV x).toNat - 1 - j) ∧
    (decode (run 0).fetchWord = .instr (.ldStVx x) →
      (∀ j, 1 ≤ j → j ≤ m → ∀ y, decode (run j).fetchWord ≠ .instr (.ldStVx y)) →
      ∀ j, j ≤ m → (run (j + 1)).st.toNat = ((run 0).getV x).toNat - 1 - j)

/-! ### The stack fault -/

/-- StackFault (R116): CALL with SP = 16 and RET with SP = 0 are the two cases, the cycle commits nothing but `fault`,
and the codes are 0, 1, 2. -/
def Obligations.StackFaultCommitsNothing : Prop :=
  FaultStatus.none.code = 0 ∧ FaultStatus.stackOverflow.code = 1 ∧ FaultStatus.stackUnderflow.code = 2 ∧
  ∀ s : State, s.fault = .none →
    (∀ nnn, decode s.fetchWord = .instr (.call nnn) → s.sp = 16 → step s = .next { s with fault := .stackOverflow }) ∧
    (decode s.fetchWord = .instr .ret → s.sp = 0 → step s = .next { s with fault := .stackUnderflow }) ∧
    ∀ t, step s = .next t → t.fault ≠ .none →
      ((∃ nnn, decode s.fetchWord = .instr (.call nnn)) ∧ s.sp = 16 ∧ t = { s with fault := .stackOverflow }) ∨
      (decode s.fetchWord = .instr .ret ∧ s.sp = 0 ∧ t = { s with fault := .stackUnderflow })

/-- While Faulted (R117): Cycle changes nothing; LoadRom, WriteKey and the reads act as they do on a running block;
only Reset clears `fault`; the state is no success. -/
def Obligations.FaultedBlockWaitsForReset : Prop :=
  ∀ s : State, s.fault ≠ .none →
    hostApply .cycle s = .next s ∧ ¬ Succeeds (.next s) ∧
    (∀ op, (op ≠ .cycle ∧ ∀ seed, op ≠ .reset seed) →
      ∃ t, hostApply op { s with fault := .none } = .next t ∧ hostApply op s = .next { t with fault := s.fault }) ∧
    (∀ op t, (∀ seed, op ≠ .reset seed) → hostApply op s = .next t → t.fault = s.fault) ∧
    (∀ seed, ∃ t, hostApply (.reset seed) s = .next t ∧ t.fault = .none) ∧
    hostReply .readFault s = .faultStatus s.fault

/-! ### Control flow -/

/-- RET (R78). -/
def Obligations.RetPopsThePc : Prop :=
  WordsZ 0xE .ret ∧ ∀ s : State,
    (s.sp = 0 → exec .ret s = .next { s with fault := .stackUnderflow }) ∧
    ∀ (_ : s.sp ≠ 0) (h : s.sp.toNat - 1 < 16),
      exec .ret s = .next { s with sp := s.sp - 1, pc := s.stack[s.sp.toNat - 1] }

/-- CALL (R80): PC here is the address of the CALL plus 2. -/
def Obligations.CallPushesThePc : Prop :=
  WordsA 2 .call ∧ ∀ (nnn : Addr) (s : State),
    (s.sp = 16 → exec (.call nnn) s = .next { s with fault := .stackOverflow }) ∧
    ∀ h : s.sp.toNat < 16, exec (.call nnn) s =
      .next { s with stack := s.stack.set s.sp.toNat s.pc h, sp := s.sp + 1, pc := BitVec.ofNat 16 nnn.toNat }

/-- A RET after a CALL, with SP and S as the CALL left them, returns to the PC that the CALL saw and the SP before it;
the entry keeps its value (R78, R80). -/
def Obligations.CallThenRetReturns : Prop :=
  ∀ (nnn : Addr) (s : State), s.sp.toNat < 16 → ∃ t, exec (.call nnn) s = .next t ∧
    ∀ u : State, u.sp = t.sp → u.stack = t.stack →
      ∃ w, exec .ret u = .next w ∧ w.pc = s.pc ∧ w.sp = s.sp ∧ w.stack = t.stack

/-- JP and JP V0 (R79, R85): the target is not reduced and not checked. -/
def Obligations.JumpsGoToTheirTarget : Prop :=
  WordsA 1 .jp ∧ WordsA 11 .jpV0 ∧ ∀ (nnn : Addr) (s : State),
    exec (.jp nnn) s = .next { s with pc := BitVec.ofNat 16 nnn.toNat } ∧
    exec (.jpV0 nnn) s = .next { s with pc := BitVec.ofNat 16 (nnn.toNat + (s.getV 0).toNat) }

/-- SE Vx,kk and SNE Vx,kk (R81, R82). -/
def Obligations.ImmediateSkipsAddTwo : Prop :=
  WordsXK 3 .seVxKk ∧ WordsXK 4 .sneVxKk ∧ ∀ (x : Reg) (kk : Byte) (s : State),
    exec (.seVxKk x kk) s = .next { s with pc := if s.getV x = kk then s.pc + 2 else s.pc } ∧
    exec (.sneVxKk x kk) s = .next { s with pc := if s.getV x ≠ kk then s.pc + 2 else s.pc }

/-- SE Vx,Vy and SNE Vx,Vy (R83, R84), for every op[3:0]. -/
def Obligations.RegisterSkipsAddTwo : Prop :=
  WordsXY 5 .seVxVy ∧ WordsXY 9 .sneVxVy ∧ ∀ (x y : Reg) (s : State),
    exec (.seVxVy x y) s = .next { s with pc := if s.getV x = s.getV y then s.pc + 2 else s.pc } ∧
    exec (.sneVxVy x y) s = .next { s with pc := if s.getV x ≠ s.getV y then s.pc + 2 else s.pc }

/-- SKP and SKNP (R107, R108): the key is the low nibble of V[x]. -/
def Obligations.KeySkipsTestTheLowNibble : Prop :=
  WordsX 14 0x9E .skp ∧ WordsX 14 0xA1 .sknp ∧ ∀ (x : Reg) (s : State),
    let k : Key := Fin.ofNat 16 (s.getV x).toNat
    exec (.skp x) s = .next { s with pc := if s.key k = true then s.pc + 2 else s.pc } ∧
    exec (.sknp x) s = .next { s with pc := if s.key k = false then s.pc + 2 else s.pc }

/-- Every instruction but the branches, the skips and Fx0A leaves PC 2 further at the end of its cycle (R17; the
source's invariant 2). -/
def Obligations.NonBranchingInstructionsAdvanceByTwo : Prop :=
  ∀ (s t : State) (i : Instr), s.fault = .none → decode s.fetchWord = .instr i → ¬ MayBranch i →
    step s = .next t → t.pc = s.pc + 2

/-! ### Registers and arithmetic -/

/-- LD Vx,kk, ADD Vx,kk and LD Vx,Vy (R87, R88, R89): V[x] only, no flag. -/
def Obligations.LoadsAndImmediateAddWriteVxOnly : Prop :=
  WordsXK 6 .ldVxKk ∧ WordsXK 7 .addVxKk ∧ WordsXYS 8 0 .ldVxVy ∧ ∀ (x y : Reg) (kk : Byte) (s : State),
    exec (.ldVxKk x kk) s = .next { s with v := s.v.set x kk } ∧
    exec (.addVxKk x kk) s = .next { s with v := s.v.set x (BitVec.ofNat 8 ((s.getV x).toNat + kk.toNat)) } ∧
    exec (.ldVxVy x y) s = .next { s with v := s.v.set x (s.getV y) }

/-- OR, AND and XOR (R90, R91, R92): V[x] only, VF is not reset. -/
def Obligations.LogicOperationsWriteVxOnly : Prop :=
  WordsXYS 8 1 .orVxVy ∧ WordsXYS 8 2 .andVxVy ∧ WordsXYS 8 3 .xorVxVy ∧ ∀ (x y : Reg) (s : State),
    exec (.orVxVy x y) s = .next { s with v := s.v.set x (s.getV x ||| s.getV y) } ∧
    exec (.andVxVy x y) s = .next { s with v := s.v.set x (s.getV x &&& s.getV y) } ∧
    exec (.xorVxVy x y) s = .next { s with v := s.v.set x (s.getV x ^^^ s.getV y) }

/-- ADD Vx,Vy (R93): the low byte of the sum, then VF = carry. -/
def Obligations.AddWritesTheLowByteAndTheCarry : Prop :=
  WordsXYS 8 4 .addVxVy ∧ ∀ (x y : Reg) (s : State),
    let sum := (s.getV x).toNat + (s.getV y).toNat
    exec (.addVxVy x y) s =
      .next { s with v := (s.v.set x (BitVec.ofNat 8 sum)).set 15 (if sum > 255 then 1 else 0) }

/-- SUB and SUBN (R94, R96): the difference modulo 256, then VF = 1 iff the minuend is strictly greater. -/
def Obligations.SubtractionsWriteTheDifferenceAndStrictGreater : Prop :=
  WordsXYS 8 5 .subVxVy ∧ WordsXYS 8 7 .subnVxVy ∧ ∀ (x y : Reg) (s : State),
    let a := (s.getV x).toNat
    let b := (s.getV y).toNat
    exec (.subVxVy x y) s =
      .next { s with v := (s.v.set x (BitVec.ofNat 8 (256 + a - b))).set 15 (if a > b then 1 else 0) } ∧
    exec (.subnVxVy x y) s =
      .next { s with v := (s.v.set x (BitVec.ofNat 8 (256 + b - a))).set 15 (if b > a then 1 else 0) }

/-- SHR and SHL (R95, R97): one bit, then VF = the bit shifted out; y is not read. -/
def Obligations.ShiftsWriteTheBitShiftedOut : Prop :=
  WordsXYS 8 6 .shrVx ∧ WordsXYS 8 14 .shlVx ∧ ∀ (x y : Reg) (s : State),
    let a := (s.getV x).toNat
    exec (.shrVx x y) s =
      .next { s with v := (s.v.set x (BitVec.ofNat 8 (a / 2))).set 15 (BitVec.ofNat 8 (a % 2)) } ∧
    exec (.shlVx x y) s =
      .next { s with v := (s.v.set x (BitVec.ofNat 8 (a * 2))).set 15 (BitVec.ofNat 8 (a / 128)) }

/-- The VF contract (R99) of the five flag-writing ALU instructions, for every x and y, VF among them. -/
def Obligations.FlagIsWrittenLast : Prop :=
  ∀ (x y : Reg) (s : State), let a := (s.getV x).toNat; let b := (s.getV y).toNat
    WritesFlagLast (.addVxVy x y) s x ((a + b) % 256) (a + b > 255) ∧
    WritesFlagLast (.subVxVy x y) s x ((256 + a - b) % 256) (a > b) ∧
    WritesFlagLast (.shrVx x y) s x (a / 2) (a % 2 = 1) ∧
    WritesFlagLast (.subnVxVy x y) s x ((256 + b - a) % 256) (b > a) ∧
    WritesFlagLast (.shlVx x y) s x (a * 2 % 256) (a ≥ 128)

/-- RND Vx,kk (R98): V[x] is some byte masked by kk, whatever the draw is; the RNG may move, nothing else changes. -/
def Obligations.RandomByteIsMaskedByKk : Prop :=
  WordsXK 12 .rnd ∧ ∀ (x : Reg) (kk : Byte) (s : State),
    ∃ (draw : Byte) (rng : Rng), exec (.rnd x kk) s = .next { s with v := s.v.set x (draw &&& kk), rng := rng }

/-- The draws are successive free values of the model's RNG parameter: a DESIGN CHOICE of the model (log entry 3). -/
def Obligations.RandomDrawsAreSuccessiveFreeValues : Prop :=
  ∀ (x : Reg) (s : State), ∃ t, exec (.rnd x 0xFF) s = .next t ∧
    t.getV x = Config.randomByte s.rng.seed s.rng.draws ∧ t.rng = ⟨s.rng.seed, s.rng.draws + 1⟩

/-- A step changes no register but those its instruction names (R14, R15). -/
def Obligations.RegistersChangeOnlyAsNamed : Prop :=
  ∀ (s t : State) (i : Instr), decode s.fetchWord = .instr i → step s = .next t →
    ∀ r, ¬ Writes r i → t.getV r = s.getV r

/-! ### Index and memory -/

/-- LD I, ADD I and LD F (R100, R101, R102): I only, no flag. -/
def Obligations.IndexInstructionsWriteIOnly : Prop :=
  WordsA 10 .ldI ∧ WordsX 15 0x1E .addIVx ∧ WordsX 15 0x29 .ldFVx ∧ ∀ (nnn : Addr) (x : Reg) (s : State),
    exec (.ldI nnn) s = .next { s with index := BitVec.ofNat 16 nnn.toNat } ∧
    exec (.addIVx x) s = .next { s with index := BitVec.ofNat 16 (s.index.toNat + (s.getV x).toNat) } ∧
    exec (.ldFVx x) s = .next { s with index := BitVec.ofNat 16 (0x50 + 5 * ((s.getV x).toNat % 16)) }

/-- LD B,Vx (R103): the three digits at I, I + 1 and I + 2, each address modulo 4096; every other byte and every other
piece of state is unchanged. -/
def Obligations.BcdStoresThreeDigits : Prop :=
  WordsX 15 0x33 .ldBVx ∧ ∀ (x : Reg) (s : State),
    let value := (s.getV x).toNat
    let a := s.index.toNat
    ∃ t, exec (.ldBVx x) s = .next t ∧ t = { s with mem := t.mem } ∧
      (t.readByte (a % 4096)).toNat = value / 100 ∧ (t.readByte ((a + 1) % 4096)).toNat = value / 10 % 10 ∧
      (t.readByte ((a + 2) % 4096)).toNat = value % 10 ∧
      ∀ b, b < 4096 → b ≠ a % 4096 → b ≠ (a + 1) % 4096 → b ≠ (a + 2) % 4096 → t.readByte b = s.readByte b

/-- LD [I],Vx (R104): V[i] at I + i for i = 0..x, each address modulo 4096; every other byte and every other piece of
state, I among it, is unchanged. -/
def Obligations.RegisterStoreWritesV0ToVx : Prop :=
  WordsX 15 0x55 .ldMemVx ∧ ∀ (x : Reg) (s : State), ∃ t, exec (.ldMemVx x) s = .next t ∧ t = { s with mem := t.mem } ∧
    (∀ i : Reg, i ≤ x → t.readByte ((s.index.toNat + i.val) % 4096) = s.getV i) ∧
    ∀ b, b < 4096 → (∀ i : Reg, i ≤ x → b ≠ (s.index.toNat + i.val) % 4096) → t.readByte b = s.readByte b

/-- LD Vx,[I] (R105): V[i] is the byte at I + i for i = 0..x, each address modulo 4096; every other register and every
other piece of state, I and M among it, is unchanged. -/
def Obligations.RegisterLoadReadsV0ToVx : Prop :=
  WordsX 15 0x65 .ldVxMem ∧ ∀ (x : Reg) (s : State), ∃ t, exec (.ldVxMem x) s = .next t ∧ t = { s with v := t.v } ∧
    (∀ i : Reg, i ≤ x → t.getV i = s.readByte ((s.index.toNat + i.val) % 4096)) ∧
    ∀ i : Reg, x < i → t.getV i = s.getV i

/-- Fx55 followed by Fx65 with the same x and I restores every register, x = F and a wrap past 0xFFF included (R104,
R105; the source's invariant 6). -/
def Obligations.StoreThenLoadRestoresTheRegisters : Prop :=
  ∀ (x : Reg) (s : State), ∃ t u, exec (.ldMemVx x) s = .next t ∧
    (∀ w : State, w.index = s.index → (∀ a, w.readByte a = t.readByte a) → (∀ r, x < r → w.getV r = s.getV r) →
      exec (.ldVxMem x) w = .next { w with v := s.v }) ∧
    exec (.ldVxMem x) t = .next u ∧ u = t

/-- A store is seen by the next fetch (R49): Fx55 over the two bytes after itself makes V0 and V1 the next opcode. -/
def Obligations.StoredCodeIsFetchedInTheNextCycle : Prop :=
  ∀ (s t : State) (x : Reg), s.fault = .none → decode s.fetchWord = .instr (.ldMemVx x) → 1 ≤ x.val →
    s.index = s.pc + 2 → step s = .next t → t.fetchWord = opcodeOf (s.getV 0) (s.getV 1)

/-- A step changes M only by Fx33 and Fx55, I only by Annn, Fx1E and Fx29, SP only by CALL and RET, S only by CALL, FB
only by CLS and DRW, and KP never (R18, R19, R23, R25, R40). -/
def Obligations.EachStateIsWrittenOnlyByItsInstructions : Prop :=
  ∀ (s t : State) (i : Instr), decode s.fetchWord = .instr i → step s = .next t →
    t.kp = s.kp ∧
    ((∀ x, i ≠ .ldBVx x ∧ i ≠ .ldMemVx x) → ∀ a, t.readByte a = s.readByte a) ∧
    ((∀ x nnn, i ≠ .ldI nnn ∧ i ≠ .addIVx x ∧ i ≠ .ldFVx x) → t.index = s.index) ∧
    ((∀ nnn, i ≠ .call nnn ∧ i ≠ .ret) → t.sp = s.sp) ∧
    ((∀ nnn, i ≠ .call nnn) → t.stack = s.stack) ∧
    ((∀ x y n, i ≠ .cls ∧ i ≠ .drw x y n) → ∀ r c, t.cell r c = s.cell r c)

/-! ### Display -/

/-- CLS (R71): every cell off, nothing else changes. -/
def Obligations.ClsTurnsEveryCellOff : Prop :=
  WordsZ 0 .cls ∧ ∀ s : State, ∃ t, exec .cls s = .next t ∧ t = { s with fb := t.fb } ∧ ∀ r c, t.cell r c = false

/-- DRW (R72 to R74): every cell is its old value XOR the sprite's mask, VF is 1 if a drawn pixel was already on and 0
otherwise, and nothing else changes; x and y are read before VF is written. -/
def Obligations.DrwXorsTheSpriteAndFlagsCollisions : Prop :=
  WordsXYN 13 .drw ∧ ∀ (x y : Reg) (n : Fin 16) (s : State), ∃ t, exec (.drw x y n) s = .next t ∧
    t = { s with v := s.v.set 15 (t.getV 15), fb := t.fb } ∧
    (∀ r c, s.SpriteCovers x y n r c → t.cell r c = !s.cell r c) ∧
    (∀ r c, ¬ s.SpriteCovers x y n r c → t.cell r c = s.cell r c) ∧
    ((∃ r c, s.SpriteCovers x y n r c ∧ s.cell r c = true) → t.getV 15 = 1) ∧
    ((¬ ∃ r c, s.SpriteCovers x y n r c ∧ s.cell r c = true) → t.getV 15 = 0)

/-- Drawing the same sprite twice, with neither coordinate in VF, restores FB, and the second draw collides exactly when
the first turned on a cell (R75; C5). -/
def Obligations.DrawingTwiceRestoresTheScreen : Prop :=
  ∀ (x y : Reg) (n : Fin 16) (s : State), x ≠ 15 → y ≠ 15 →
    ∃ t u, exec (.drw x y n) s = .next t ∧ exec (.drw x y n) t = .next u ∧ (∀ r c, u.cell r c = s.cell r c) ∧
      (u.getV 15 = 1 ↔ ∃ r c, s.cell r c = false ∧ t.cell r c = true) ∧ (u.getV 15 = 0 ∨ u.getV 15 = 1)

/-! ### Keypad, timers and the host -/

/-- LD Vx,DT, LD DT,Vx and LD ST,Vx (R109, R111, R112): the handler copies the value, and the tick of the same cycle
comes after it. -/
def Obligations.TimerMovesCopyTheValueBeforeTheTick : Prop :=
  WordsX 15 0x07 .ldVxDt ∧ WordsX 15 0x15 .ldDtVx ∧ WordsX 15 0x18 .ldStVx ∧ ∀ (x : Reg) (s : State),
    (exec (.ldVxDt x) s = .next { s with v := s.v.set x s.dt } ∧
      exec (.ldDtVx x) s = .next { s with dt := s.getV x } ∧
      exec (.ldStVx x) s = .next { s with st := s.getV x }) ∧
    (s.fault = .none →
      (decode s.fetchWord = .instr (.ldVxDt x) →
        ∃ t, step s = .next t ∧ t.getV x = s.dt ∧ t.dt.toNat = s.dt.toNat - 1) ∧
      (decode s.fetchWord = .instr (.ldDtVx x) → ∃ t, step s = .next t ∧ t.dt.toNat = (s.getV x).toNat - 1) ∧
      (decode s.fetchWord = .instr (.ldStVx x) → ∃ t, step s = .next t ∧ t.st.toNat = (s.getV x).toNat - 1))

/-- LD Vx,K (R110): the lowest pressed key, or PC back to this instruction when none is pressed; such a waiting cycle
completes, stays at the instruction and ticks the timers. -/
def Obligations.KeyWaitTakesTheLowestKeyOrStays : Prop :=
  WordsX 15 0x0A .ldVxK ∧ ∀ (x : Reg) (s : State),
    (∀ k : Key, s.key k = true → (∀ j, j < k → s.key j = false) →
      exec (.ldVxK x) s = .next { s with v := s.v.set x (BitVec.ofNat 8 k.val) }) ∧
    ((∀ k : Key, s.key k = false) → exec (.ldVxK x) s = .next { s with pc := s.pc - 2 }) ∧
    (s.fault = .none → decode s.fetchWord = .instr (.ldVxK x) → (∀ k, s.key k = false) →
      step s = .next { s with
        opcode := s.fetchWord
        dt := if s.dt = 0 then 0 else s.dt - 1
        st := if s.st = 0 then 0 else s.st - 1 })

/-- LoadRom (R44): the bytes up to 3584 at 0x200 and up; every other byte and every other piece of state is
unchanged. -/
def Obligations.LoadRomWritesTheProgramArea : Prop :=
  ∀ (bytes : List Byte) (s : State), ∃ t, hostApply (.loadRom bytes) s = .next t ∧ t = { s with mem := t.mem } ∧
    (∀ j, ∀ h : j < bytes.length, j < 3584 → t.readByte (0x200 + j) = bytes[j]) ∧
    ∀ a, a < 4096 → (a < 0x200 ∨ 0x200 + min bytes.length 3584 ≤ a) → t.readByte a = s.readByte a

/-- WriteKey (R33): one cell of KP, nothing else. -/
def Obligations.WriteKeySetsOneKey : Prop :=
  ∀ (k : Key) (pressed : Bool) (s : State), ∃ t, hostApply (.writeKey k pressed) s = .next t ∧
    t = { s with kp := t.kp } ∧ t.key k = pressed ∧ ∀ j, j ≠ k → t.key j = s.key j

/-- The reads (R22, R23, R29, R32): ReadFB returns the cells row-major, cell (r, c) at r × 64 + c; ReadST and ReadFault
return ST and the fault status; none changes anything. -/
def Obligations.HostReadsReturnTheState : Prop :=
  ∀ s : State,
    (∃ fb : Vector Bool 2048, hostReply .readFB s = .cells fb ∧
      ∀ (r : Fin 32) (c : Fin 64), fb[r.val * 64 + c.val]'(by omega) = s.cell r c) ∧
    hostReply .readST s = .soundTimer s.st ∧ hostReply .readFault s = .faultStatus s.fault ∧
    hostApply .readFB s = .next s ∧ hostApply .readST s = .next s ∧ hostApply .readFault s = .next s

/-- The rendering view (R23, R24): 2048 cells with a row stride of 64, each the "on" or the "off" constant of the host;
since the constants are distinct, the view tells every cell. -/
def Obligations.RenderedCellsAreTwoValued : Prop :=
  ∀ (α : Type) (cells : Config.CellConstants α) (s : State) (r : Fin 32) (c : Fin 64),
    let shown := (s.renderFB cells)[r.val * 64 + c.val]'(by omega)
    (shown = cells.on ↔ s.cell r c = true) ∧ (shown = cells.off ↔ s.cell r c = false)
end

