-- ==== Sys2Proof/WellFormed.lean ====
section
/-! DEFINITION. Well-formedness. Every term of `Instr` is well formed, because every value of every field is legal
(R53). What can be ill formed is the term an assembler writes: a mnemonic with operands (30_encoding.md R62). This
file holds those terms, the checks on them, and the form R62 gives each instruction (log entry 11). -/

namespace Sys2Proof

/-- The mnemonics of R62. One mnemonic covers several rows of the table; the operands choose the row. -/
inductive Mnemonic where
  | CLS | RET | JP | CALL | SE | SNE | LD | ADD | OR | AND | XOR | SUB | SHR | SUBN | SHL | RND | DRW | SKP | SKNP
  deriving DecidableEq, Repr

/-- An operand as R62 writes it. Numbers are unbounded here: their range is what the check is about. -/
inductive Operand where
  /-- `V0`..`VF`. -/
  | v (n : Nat)
  /-- A number: nnn, kk or n. -/
  | num (n : Nat)
  /-- `I`. -/
  | i
  /-- `[I]`. -/
  | mi
  /-- `DT`. -/
  | dt
  /-- `ST`. -/
  | st
  /-- `K`. -/
  | k
  /-- `F`. -/
  | f
  /-- `B`. -/
  | b
  deriving DecidableEq, Repr

/-- One assembler line: a mnemonic and its operands, destination first (R62). -/
structure AsmLine where
  mnemonic : Mnemonic
  operands : List Operand
  deriving DecidableEq, Repr

/-- Why an assembler line stands for no instruction. -/
inductive IllFormed where
  /-- The mnemonic with these operands is none of R62's forms. -/
  | noSuchForm
  /-- A register number above 15 (R13). -/
  | noSuchRegister (n : Nat)
  /-- An address above 0xFFF (R53). -/
  | addressTooWide (n : Nat)
  /-- An immediate above 0xFF (R53). -/
  | immediateTooWide (n : Nat)
  /-- A row count above 15 (R53). -/
  | rowCountTooWide (n : Nat)
  deriving DecidableEq, Repr

/-- The check of a register number. -/
def checkReg (n : Nat) : Except IllFormed Reg :=
  if h : n < 16 then .ok ⟨n, h⟩ else .error (.noSuchRegister n)

/-- The check of an address nnn. -/
def checkAddr (n : Nat) : Except IllFormed Addr :=
  if n < 4096 then .ok (BitVec.ofNat 12 n) else .error (.addressTooWide n)

/-- The check of an immediate kk. -/
def checkByte (n : Nat) : Except IllFormed Byte :=
  if n < 256 then .ok (BitVec.ofNat 8 n) else .error (.immediateTooWide n)

/-- The check of a row count n. -/
def checkRows (n : Nat) : Except IllFormed (Fin 16) :=
  if h : n < 16 then .ok ⟨n, h⟩ else .error (.rowCountTooWide n)

/-- An instruction with one register operand. -/
def checkX (f : Reg → Instr) (x : Nat) : Except IllFormed Instr :=
  (checkReg x).map f

/-- An instruction with two register operands. -/
def checkXY (f : Reg → Reg → Instr) (x y : Nat) : Except IllFormed Instr :=
  (checkReg x).bind fun x => (checkReg y).map (f x)

/-- An instruction with a register and an immediate. -/
def checkXK (f : Reg → Byte → Instr) (x kk : Nat) : Except IllFormed Instr :=
  (checkReg x).bind fun x => (checkByte kk).map (f x)

/-- An instruction with an address. -/
def checkA (f : Addr → Instr) (nnn : Nat) : Except IllFormed Instr :=
  (checkAddr nnn).map f

/-- The instruction an assembler line stands for, or why it stands for none: R62's forms, one arm each. `SHR Vx` and
`SHL Vx` assemble with y = 0. -/
def assemble (a : AsmLine) : Except IllFormed Instr :=
  match a.mnemonic, a.operands with
  | .CLS, [] => .ok .cls
  | .RET, [] => .ok .ret
  | .JP, [.num nnn] => checkA .jp nnn
  | .JP, [.v 0, .num nnn] => checkA .jpV0 nnn
  | .CALL, [.num nnn] => checkA .call nnn
  | .SE, [.v x, .num kk] => checkXK .seVxKk x kk
  | .SE, [.v x, .v y] => checkXY .seVxVy x y
  | .SNE, [.v x, .num kk] => checkXK .sneVxKk x kk
  | .SNE, [.v x, .v y] => checkXY .sneVxVy x y
  | .LD, [.v x, .num kk] => checkXK .ldVxKk x kk
  | .LD, [.v x, .v y] => checkXY .ldVxVy x y
  | .LD, [.v x, .dt] => checkX .ldVxDt x
  | .LD, [.v x, .k] => checkX .ldVxK x
  | .LD, [.v x, .mi] => checkX .ldVxMem x
  | .LD, [.i, .num nnn] => checkA .ldI nnn
  | .LD, [.dt, .v x] => checkX .ldDtVx x
  | .LD, [.st, .v x] => checkX .ldStVx x
  | .LD, [.f, .v x] => checkX .ldFVx x
  | .LD, [.b, .v x] => checkX .ldBVx x
  | .LD, [.mi, .v x] => checkX .ldMemVx x
  | .ADD, [.v x, .num kk] => checkXK .addVxKk x kk
  | .ADD, [.v x, .v y] => checkXY .addVxVy x y
  | .ADD, [.i, .v x] => checkX .addIVx x
  | .OR, [.v x, .v y] => checkXY .orVxVy x y
  | .AND, [.v x, .v y] => checkXY .andVxVy x y
  | .XOR, [.v x, .v y] => checkXY .xorVxVy x y
  | .SUB, [.v x, .v y] => checkXY .subVxVy x y
  | .SUBN, [.v x, .v y] => checkXY .subnVxVy x y
  | .SHR, [.v x] => checkX (fun x => .shrVx x 0) x
  | .SHL, [.v x] => checkX (fun x => .shlVx x 0) x
  | .RND, [.v x, .num kk] => checkXK .rnd x kk
  | .DRW, [.v x, .v y, .num n] =>
    (checkReg x).bind fun x => (checkReg y).bind fun y => (checkRows n).map (.drw x y)
  | .SKP, [.v x] => checkX .skp x
  | .SKNP, [.v x] => checkX .sknp x
  | _, _ => .error .noSuchForm

/-- The line is one of R62's forms with every number in range. -/
def AsmLine.wellFormed (a : AsmLine) : Bool := (assemble a).isOk

/-- The form R62 writes for an instruction. -/
def Instr.asm : Instr → AsmLine
  | .cls => ⟨.CLS, []⟩
  | .ret => ⟨.RET, []⟩
  | .jp nnn => ⟨.JP, [.num nnn.toNat]⟩
  | .call nnn => ⟨.CALL, [.num nnn.toNat]⟩
  | .seVxKk x kk => ⟨.SE, [.v x, .num kk.toNat]⟩
  | .sneVxKk x kk => ⟨.SNE, [.v x, .num kk.toNat]⟩
  | .seVxVy x y => ⟨.SE, [.v x, .v y]⟩
  | .ldVxKk x kk => ⟨.LD, [.v x, .num kk.toNat]⟩
  | .addVxKk x kk => ⟨.ADD, [.v x, .num kk.toNat]⟩
  | .ldVxVy x y => ⟨.LD, [.v x, .v y]⟩
  | .orVxVy x y => ⟨.OR, [.v x, .v y]⟩
  | .andVxVy x y => ⟨.AND, [.v x, .v y]⟩
  | .xorVxVy x y => ⟨.XOR, [.v x, .v y]⟩
  | .addVxVy x y => ⟨.ADD, [.v x, .v y]⟩
  | .subVxVy x y => ⟨.SUB, [.v x, .v y]⟩
  | .shrVx x _ => ⟨.SHR, [.v x]⟩
  | .subnVxVy x y => ⟨.SUBN, [.v x, .v y]⟩
  | .shlVx x _ => ⟨.SHL, [.v x]⟩
  | .sneVxVy x y => ⟨.SNE, [.v x, .v y]⟩
  | .ldI nnn => ⟨.LD, [.i, .num nnn.toNat]⟩
  | .jpV0 nnn => ⟨.JP, [.v 0, .num nnn.toNat]⟩
  | .rnd x kk => ⟨.RND, [.v x, .num kk.toNat]⟩
  | .drw x y n => ⟨.DRW, [.v x, .v y, .num n]⟩
  | .skp x => ⟨.SKP, [.v x]⟩
  | .sknp x => ⟨.SKNP, [.v x]⟩
  | .ldVxDt x => ⟨.LD, [.v x, .dt]⟩
  | .ldVxK x => ⟨.LD, [.v x, .k]⟩
  | .ldDtVx x => ⟨.LD, [.dt, .v x]⟩
  | .ldStVx x => ⟨.LD, [.st, .v x]⟩
  | .addIVx x => ⟨.ADD, [.i, .v x]⟩
  | .ldFVx x => ⟨.LD, [.f, .v x]⟩
  | .ldBVx x => ⟨.LD, [.b, .v x]⟩
  | .ldMemVx x => ⟨.LD, [.mi, .v x]⟩
  | .ldVxMem x => ⟨.LD, [.v x, .mi]⟩

/-- The instruction with its ignored field at the canonical value: `SHR Vx` and `SHL Vx` have y = 0 (R60, R62). -/
def Instr.canonical : Instr → Instr
  | .shrVx x _ => .shrVx x 0
  | .shlVx x _ => .shlVx x 0
  | .cls => .cls
  | .ret => .ret
  | .jp nnn => .jp nnn
  | .call nnn => .call nnn
  | .seVxKk x kk => .seVxKk x kk
  | .sneVxKk x kk => .sneVxKk x kk
  | .seVxVy x y => .seVxVy x y
  | .ldVxKk x kk => .ldVxKk x kk
  | .addVxKk x kk => .addVxKk x kk
  | .ldVxVy x y => .ldVxVy x y
  | .orVxVy x y => .orVxVy x y
  | .andVxVy x y => .andVxVy x y
  | .xorVxVy x y => .xorVxVy x y
  | .addVxVy x y => .addVxVy x y
  | .subVxVy x y => .subVxVy x y
  | .subnVxVy x y => .subnVxVy x y
  | .sneVxVy x y => .sneVxVy x y
  | .ldI nnn => .ldI nnn
  | .jpV0 nnn => .jpV0 nnn
  | .rnd x kk => .rnd x kk
  | .drw x y n => .drw x y n
  | .skp x => .skp x
  | .sknp x => .sknp x
  | .ldVxDt x => .ldVxDt x
  | .ldVxK x => .ldVxK x
  | .ldDtVx x => .ldDtVx x
  | .ldStVx x => .ldStVx x
  | .addIVx x => .addIVx x
  | .ldFVx x => .ldFVx x
  | .ldBVx x => .ldBVx x
  | .ldMemVx x => .ldMemVx x
  | .ldVxMem x => .ldVxMem x

/-- An instruction is well formed when the form R62 writes for it passes the checks. -/
def Instr.wellFormed (i : Instr) : Bool := i.asm.wellFormed

end Sys2Proof
end

