-- ==== Sys2Proof/Laws/Decode.lean ====
section
/-! SUPPORT. The fields of an encoded word (30_encoding.md R52, R53), and the bytes of a word (R37). -/

namespace Sys2Proof

/-- The opcode of two bytes as a number: the high byte counts 256 (R37). -/
theorem toNat_opcodeOf (high low : Byte) : (opcodeOf high low).toNat = high.toNat * 256 + low.toNat := by
  have h := Nat.two_pow_add_eq_or_of_lt (i := 8) (b := low.toNat) low.isLt high.toNat
  simp only [opcodeOf, BitVec.toNat_append, Nat.shiftLeft_eq]
  rw [Nat.mul_comm, ← h]

/-- An opcode's bytes put together again are the opcode (R37). -/
@[simp] theorem opcodeOf_bytesOf (op : Word) : opcodeOf (bytesOf op).1 (bytesOf op).2 = op := by
  have := op.isLt
  apply BitVec.eq_of_toNat_eq
  rw [toNat_opcodeOf]
  simp only [bytesOf, BitVec.extractLsb'_toNat, Nat.shiftRight_eq_div_pow]
  omega

theorem field_lt (op : Word) (hi lo : Nat) : field op hi lo < 2 ^ (hi - lo + 1) :=
  Nat.mod_lt _ (Nat.two_pow_pos _)

/-! ### The numbers behind the fields -/

theorem field_15_12 (op : Word) : field op 15 12 = op.toNat / 4096 := by
  have := op.isLt
  simp only [field]; omega

theorem field_3_0 (op : Word) : field op 3 0 = op.toNat % 16 := by simp [field]

theorem field_7_0 (op : Word) : field op 7 0 = op.toNat % 256 := by simp [field]

theorem fieldX_eq (op : Word) : fieldX op = Fin.ofNat 16 (op.toNat / 256) := by
  apply Fin.ext; simp [fieldX, field, Fin.ofNat]

theorem fieldY_eq (op : Word) : fieldY op = Fin.ofNat 16 (op.toNat / 16) := by
  apply Fin.ext; simp [fieldY, field, Fin.ofNat]

theorem fieldN_eq (op : Word) : fieldN op = Fin.ofNat 16 op.toNat := by
  apply Fin.ext; simp [fieldN, field, Fin.ofNat]

theorem fieldKk_eq (op : Word) : fieldKk op = BitVec.ofNat 8 op.toNat := by
  apply BitVec.eq_of_toNat_eq; simp [fieldKk, field]

theorem fieldNnn_eq (op : Word) : fieldNnn op = BitVec.ofNat 12 op.toNat := by
  apply BitVec.eq_of_toNat_eq; simp [fieldNnn, field]

/-! ### Encoded words as numbers (R52) -/

theorem toNat_encodeA (o : Nat) (nnn : Addr) (ho : o < 16) : (encodeA o nnn).toNat = o * 4096 + nnn.toNat := by
  have := nnn.isLt
  simp only [encodeA, BitVec.toNat_ofNat]; omega

theorem toNat_encodeXK (o : Nat) (x : Reg) (kk : Byte) (ho : o < 16) :
    (encodeXK o x kk).toNat = o * 4096 + x * 256 + kk.toNat := by
  have := kk.isLt
  have := x.isLt
  simp only [encodeXK, BitVec.toNat_ofNat]; omega

theorem toNat_encodeXY (o : Nat) (x y : Reg) (s : Nat) (ho : o < 16) (hs : s < 16) :
    (encodeXY o x y s).toNat = o * 4096 + x * 256 + y * 16 + s := by
  have := x.isLt
  have := y.isLt
  simp only [encodeXY, BitVec.toNat_ofNat]; omega

theorem toNat_encodeX (o : Nat) (x : Reg) (s : Nat) (ho : o < 16) (hs : s < 256) :
    (encodeX o x s).toNat = o * 4096 + x * 256 + s := by
  have := x.isLt
  simp only [encodeX, BitVec.toNat_ofNat]; omega

/-! ### The checks of WellFormed.lean on values in range -/

@[simp] theorem checkReg_val (x : Reg) : checkReg x.val = .ok x := by simp [checkReg]

@[simp] theorem checkRows_val (n : Fin 16) : checkRows n.val = .ok n := by simp [checkRows]

@[simp] theorem checkAddr_toNat (a : Addr) : checkAddr a.toNat = .ok a := by
  have := a.isLt
  simp only [checkAddr]
  rw [if_pos (by omega)]
  simp

@[simp] theorem checkByte_toNat (b : Byte) : checkByte b.toNat = .ok b := by
  have := b.isLt
  simp only [checkByte]
  rw [if_pos (by omega)]
  simp

@[simp] theorem checkX_val (f : Reg → Instr) (x : Reg) : checkX f x.val = .ok (f x) := by
  simp [checkX, Except.map]

@[simp] theorem checkXY_val (f : Reg → Reg → Instr) (x y : Reg) : checkXY f x.val y.val = .ok (f x y) := by
  simp [checkXY, Except.map, Except.bind]

@[simp] theorem checkXK_val (f : Reg → Byte → Instr) (x : Reg) (kk : Byte) :
    checkXK f x.val kk.toNat = .ok (f x kk) := by
  simp [checkXK, Except.map, Except.bind]

@[simp] theorem checkA_toNat (f : Addr → Instr) (nnn : Addr) : checkA f nnn.toNat = .ok (f nnn) := by
  simp [checkA, Except.map]

end Sys2Proof
end

