-- ==== Sys2Proof/Laws/State.lean ====
section
/-! SUPPORT. One lemma for each field of State after each update of State, true by rfl, and what the accessors read after
an update, so that no later proof unfolds a record update. -/

namespace Sys2Proof.Machine.State

variable (s : State)

/-! ### setV -/

@[simp] theorem setV_v (x : Reg) (b : Byte) : (s.setV x b).v = s.v.set x b := rfl
@[simp] theorem setV_index (x : Reg) (b : Byte) : (s.setV x b).index = s.index := rfl
@[simp] theorem setV_pc (x : Reg) (b : Byte) : (s.setV x b).pc = s.pc := rfl
@[simp] theorem setV_sp (x : Reg) (b : Byte) : (s.setV x b).sp = s.sp := rfl
@[simp] theorem setV_stack (x : Reg) (b : Byte) : (s.setV x b).stack = s.stack := rfl
@[simp] theorem setV_dt (x : Reg) (b : Byte) : (s.setV x b).dt = s.dt := rfl
@[simp] theorem setV_st (x : Reg) (b : Byte) : (s.setV x b).st = s.st := rfl
@[simp] theorem setV_mem (x : Reg) (b : Byte) : (s.setV x b).mem = s.mem := rfl
@[simp] theorem setV_fb (x : Reg) (b : Byte) : (s.setV x b).fb = s.fb := rfl
@[simp] theorem setV_kp (x : Reg) (b : Byte) : (s.setV x b).kp = s.kp := rfl
@[simp] theorem setV_rng (x : Reg) (b : Byte) : (s.setV x b).rng = s.rng := rfl
@[simp] theorem setV_opcode (x : Reg) (b : Byte) : (s.setV x b).opcode = s.opcode := rfl
@[simp] theorem setV_fault (x : Reg) (b : Byte) : (s.setV x b).fault = s.fault := rfl
@[simp] theorem setV_font (x : Reg) (b : Byte) : (s.setV x b).font = s.font := rfl

/-! ### setIndex -/

@[simp] theorem setIndex_v (w : Word) : (s.setIndex w).v = s.v := rfl
@[simp] theorem setIndex_index (w : Word) : (s.setIndex w).index = w := rfl
@[simp] theorem setIndex_pc (w : Word) : (s.setIndex w).pc = s.pc := rfl
@[simp] theorem setIndex_sp (w : Word) : (s.setIndex w).sp = s.sp := rfl
@[simp] theorem setIndex_stack (w : Word) : (s.setIndex w).stack = s.stack := rfl
@[simp] theorem setIndex_dt (w : Word) : (s.setIndex w).dt = s.dt := rfl
@[simp] theorem setIndex_st (w : Word) : (s.setIndex w).st = s.st := rfl
@[simp] theorem setIndex_mem (w : Word) : (s.setIndex w).mem = s.mem := rfl
@[simp] theorem setIndex_fb (w : Word) : (s.setIndex w).fb = s.fb := rfl
@[simp] theorem setIndex_kp (w : Word) : (s.setIndex w).kp = s.kp := rfl
@[simp] theorem setIndex_rng (w : Word) : (s.setIndex w).rng = s.rng := rfl
@[simp] theorem setIndex_opcode (w : Word) : (s.setIndex w).opcode = s.opcode := rfl
@[simp] theorem setIndex_fault (w : Word) : (s.setIndex w).fault = s.fault := rfl
@[simp] theorem setIndex_font (w : Word) : (s.setIndex w).font = s.font := rfl

/-! ### setPc -/

@[simp] theorem setPc_v (w : Word) : (s.setPc w).v = s.v := rfl
@[simp] theorem setPc_index (w : Word) : (s.setPc w).index = s.index := rfl
@[simp] theorem setPc_pc (w : Word) : (s.setPc w).pc = w := rfl
@[simp] theorem setPc_sp (w : Word) : (s.setPc w).sp = s.sp := rfl
@[simp] theorem setPc_stack (w : Word) : (s.setPc w).stack = s.stack := rfl
@[simp] theorem setPc_dt (w : Word) : (s.setPc w).dt = s.dt := rfl
@[simp] theorem setPc_st (w : Word) : (s.setPc w).st = s.st := rfl
@[simp] theorem setPc_mem (w : Word) : (s.setPc w).mem = s.mem := rfl
@[simp] theorem setPc_fb (w : Word) : (s.setPc w).fb = s.fb := rfl
@[simp] theorem setPc_kp (w : Word) : (s.setPc w).kp = s.kp := rfl
@[simp] theorem setPc_rng (w : Word) : (s.setPc w).rng = s.rng := rfl
@[simp] theorem setPc_opcode (w : Word) : (s.setPc w).opcode = s.opcode := rfl
@[simp] theorem setPc_fault (w : Word) : (s.setPc w).fault = s.fault := rfl
@[simp] theorem setPc_font (w : Word) : (s.setPc w).font = s.font := rfl

/-! ### setSp -/

@[simp] theorem setSp_v (b : Byte) : (s.setSp b).v = s.v := rfl
@[simp] theorem setSp_index (b : Byte) : (s.setSp b).index = s.index := rfl
@[simp] theorem setSp_pc (b : Byte) : (s.setSp b).pc = s.pc := rfl
@[simp] theorem setSp_sp (b : Byte) : (s.setSp b).sp = b := rfl
@[simp] theorem setSp_stack (b : Byte) : (s.setSp b).stack = s.stack := rfl
@[simp] theorem setSp_dt (b : Byte) : (s.setSp b).dt = s.dt := rfl
@[simp] theorem setSp_st (b : Byte) : (s.setSp b).st = s.st := rfl
@[simp] theorem setSp_mem (b : Byte) : (s.setSp b).mem = s.mem := rfl
@[simp] theorem setSp_fb (b : Byte) : (s.setSp b).fb = s.fb := rfl
@[simp] theorem setSp_kp (b : Byte) : (s.setSp b).kp = s.kp := rfl
@[simp] theorem setSp_rng (b : Byte) : (s.setSp b).rng = s.rng := rfl
@[simp] theorem setSp_opcode (b : Byte) : (s.setSp b).opcode = s.opcode := rfl
@[simp] theorem setSp_fault (b : Byte) : (s.setSp b).fault = s.fault := rfl
@[simp] theorem setSp_font (b : Byte) : (s.setSp b).font = s.font := rfl

/-! ### setStack -/

@[simp] theorem setStack_v (j : Fin 16) (w : Word) : (s.setStack j w).v = s.v := rfl
@[simp] theorem setStack_index (j : Fin 16) (w : Word) : (s.setStack j w).index = s.index := rfl
@[simp] theorem setStack_pc (j : Fin 16) (w : Word) : (s.setStack j w).pc = s.pc := rfl
@[simp] theorem setStack_sp (j : Fin 16) (w : Word) : (s.setStack j w).sp = s.sp := rfl
@[simp] theorem setStack_stack (j : Fin 16) (w : Word) : (s.setStack j w).stack = s.stack.set j w := rfl
@[simp] theorem setStack_dt (j : Fin 16) (w : Word) : (s.setStack j w).dt = s.dt := rfl
@[simp] theorem setStack_st (j : Fin 16) (w : Word) : (s.setStack j w).st = s.st := rfl
@[simp] theorem setStack_mem (j : Fin 16) (w : Word) : (s.setStack j w).mem = s.mem := rfl
@[simp] theorem setStack_fb (j : Fin 16) (w : Word) : (s.setStack j w).fb = s.fb := rfl
@[simp] theorem setStack_kp (j : Fin 16) (w : Word) : (s.setStack j w).kp = s.kp := rfl
@[simp] theorem setStack_rng (j : Fin 16) (w : Word) : (s.setStack j w).rng = s.rng := rfl
@[simp] theorem setStack_opcode (j : Fin 16) (w : Word) : (s.setStack j w).opcode = s.opcode := rfl
@[simp] theorem setStack_fault (j : Fin 16) (w : Word) : (s.setStack j w).fault = s.fault := rfl
@[simp] theorem setStack_font (j : Fin 16) (w : Word) : (s.setStack j w).font = s.font := rfl

/-! ### setDt -/

@[simp] theorem setDt_v (b : Byte) : (s.setDt b).v = s.v := rfl
@[simp] theorem setDt_index (b : Byte) : (s.setDt b).index = s.index := rfl
@[simp] theorem setDt_pc (b : Byte) : (s.setDt b).pc = s.pc := rfl
@[simp] theorem setDt_sp (b : Byte) : (s.setDt b).sp = s.sp := rfl
@[simp] theorem setDt_stack (b : Byte) : (s.setDt b).stack = s.stack := rfl
@[simp] theorem setDt_dt (b : Byte) : (s.setDt b).dt = b := rfl
@[simp] theorem setDt_st (b : Byte) : (s.setDt b).st = s.st := rfl
@[simp] theorem setDt_mem (b : Byte) : (s.setDt b).mem = s.mem := rfl
@[simp] theorem setDt_fb (b : Byte) : (s.setDt b).fb = s.fb := rfl
@[simp] theorem setDt_kp (b : Byte) : (s.setDt b).kp = s.kp := rfl
@[simp] theorem setDt_rng (b : Byte) : (s.setDt b).rng = s.rng := rfl
@[simp] theorem setDt_opcode (b : Byte) : (s.setDt b).opcode = s.opcode := rfl
@[simp] theorem setDt_fault (b : Byte) : (s.setDt b).fault = s.fault := rfl
@[simp] theorem setDt_font (b : Byte) : (s.setDt b).font = s.font := rfl

/-! ### setSt -/

@[simp] theorem setSt_v (b : Byte) : (s.setSt b).v = s.v := rfl
@[simp] theorem setSt_index (b : Byte) : (s.setSt b).index = s.index := rfl
@[simp] theorem setSt_pc (b : Byte) : (s.setSt b).pc = s.pc := rfl
@[simp] theorem setSt_sp (b : Byte) : (s.setSt b).sp = s.sp := rfl
@[simp] theorem setSt_stack (b : Byte) : (s.setSt b).stack = s.stack := rfl
@[simp] theorem setSt_dt (b : Byte) : (s.setSt b).dt = s.dt := rfl
@[simp] theorem setSt_st (b : Byte) : (s.setSt b).st = b := rfl
@[simp] theorem setSt_mem (b : Byte) : (s.setSt b).mem = s.mem := rfl
@[simp] theorem setSt_fb (b : Byte) : (s.setSt b).fb = s.fb := rfl
@[simp] theorem setSt_kp (b : Byte) : (s.setSt b).kp = s.kp := rfl
@[simp] theorem setSt_rng (b : Byte) : (s.setSt b).rng = s.rng := rfl
@[simp] theorem setSt_opcode (b : Byte) : (s.setSt b).opcode = s.opcode := rfl
@[simp] theorem setSt_fault (b : Byte) : (s.setSt b).fault = s.fault := rfl
@[simp] theorem setSt_font (b : Byte) : (s.setSt b).font = s.font := rfl

/-! ### writeByte -/

@[simp] theorem writeByte_v (a : Nat) (b : Byte) : (s.writeByte a b).v = s.v := rfl
@[simp] theorem writeByte_index (a : Nat) (b : Byte) : (s.writeByte a b).index = s.index := rfl
@[simp] theorem writeByte_pc (a : Nat) (b : Byte) : (s.writeByte a b).pc = s.pc := rfl
@[simp] theorem writeByte_sp (a : Nat) (b : Byte) : (s.writeByte a b).sp = s.sp := rfl
@[simp] theorem writeByte_stack (a : Nat) (b : Byte) : (s.writeByte a b).stack = s.stack := rfl
@[simp] theorem writeByte_dt (a : Nat) (b : Byte) : (s.writeByte a b).dt = s.dt := rfl
@[simp] theorem writeByte_st (a : Nat) (b : Byte) : (s.writeByte a b).st = s.st := rfl
@[simp] theorem writeByte_mem (a : Nat) (b : Byte) : (s.writeByte a b).mem = memStore s.font s.mem (memAddr a) b := rfl
@[simp] theorem writeByte_fb (a : Nat) (b : Byte) : (s.writeByte a b).fb = s.fb := rfl
@[simp] theorem writeByte_kp (a : Nat) (b : Byte) : (s.writeByte a b).kp = s.kp := rfl
@[simp] theorem writeByte_rng (a : Nat) (b : Byte) : (s.writeByte a b).rng = s.rng := rfl
@[simp] theorem writeByte_opcode (a : Nat) (b : Byte) : (s.writeByte a b).opcode = s.opcode := rfl
@[simp] theorem writeByte_fault (a : Nat) (b : Byte) : (s.writeByte a b).fault = s.fault := rfl
@[simp] theorem writeByte_font (a : Nat) (b : Byte) : (s.writeByte a b).font = s.font := rfl

/-! ### setFb -/

@[simp] theorem setFb_v (fb : FrameBuffer) : (s.setFb fb).v = s.v := rfl
@[simp] theorem setFb_index (fb : FrameBuffer) : (s.setFb fb).index = s.index := rfl
@[simp] theorem setFb_pc (fb : FrameBuffer) : (s.setFb fb).pc = s.pc := rfl
@[simp] theorem setFb_sp (fb : FrameBuffer) : (s.setFb fb).sp = s.sp := rfl
@[simp] theorem setFb_stack (fb : FrameBuffer) : (s.setFb fb).stack = s.stack := rfl
@[simp] theorem setFb_dt (fb : FrameBuffer) : (s.setFb fb).dt = s.dt := rfl
@[simp] theorem setFb_st (fb : FrameBuffer) : (s.setFb fb).st = s.st := rfl
@[simp] theorem setFb_mem (fb : FrameBuffer) : (s.setFb fb).mem = s.mem := rfl
@[simp] theorem setFb_fb (fb : FrameBuffer) : (s.setFb fb).fb = fb := rfl
@[simp] theorem setFb_kp (fb : FrameBuffer) : (s.setFb fb).kp = s.kp := rfl
@[simp] theorem setFb_rng (fb : FrameBuffer) : (s.setFb fb).rng = s.rng := rfl
@[simp] theorem setFb_opcode (fb : FrameBuffer) : (s.setFb fb).opcode = s.opcode := rfl
@[simp] theorem setFb_fault (fb : FrameBuffer) : (s.setFb fb).fault = s.fault := rfl
@[simp] theorem setFb_font (fb : FrameBuffer) : (s.setFb fb).font = s.font := rfl

/-! ### setKey -/

@[simp] theorem setKey_v (k : Key) (p : Bool) : (s.setKey k p).v = s.v := rfl
@[simp] theorem setKey_index (k : Key) (p : Bool) : (s.setKey k p).index = s.index := rfl
@[simp] theorem setKey_pc (k : Key) (p : Bool) : (s.setKey k p).pc = s.pc := rfl
@[simp] theorem setKey_sp (k : Key) (p : Bool) : (s.setKey k p).sp = s.sp := rfl
@[simp] theorem setKey_stack (k : Key) (p : Bool) : (s.setKey k p).stack = s.stack := rfl
@[simp] theorem setKey_dt (k : Key) (p : Bool) : (s.setKey k p).dt = s.dt := rfl
@[simp] theorem setKey_st (k : Key) (p : Bool) : (s.setKey k p).st = s.st := rfl
@[simp] theorem setKey_mem (k : Key) (p : Bool) : (s.setKey k p).mem = s.mem := rfl
@[simp] theorem setKey_fb (k : Key) (p : Bool) : (s.setKey k p).fb = s.fb := rfl
@[simp] theorem setKey_kp (k : Key) (p : Bool) : (s.setKey k p).kp = s.kp.set k p := rfl
@[simp] theorem setKey_rng (k : Key) (p : Bool) : (s.setKey k p).rng = s.rng := rfl
@[simp] theorem setKey_opcode (k : Key) (p : Bool) : (s.setKey k p).opcode = s.opcode := rfl
@[simp] theorem setKey_fault (k : Key) (p : Bool) : (s.setKey k p).fault = s.fault := rfl
@[simp] theorem setKey_font (k : Key) (p : Bool) : (s.setKey k p).font = s.font := rfl

/-! ### setRng -/

@[simp] theorem setRng_v (r : Rng) : (s.setRng r).v = s.v := rfl
@[simp] theorem setRng_index (r : Rng) : (s.setRng r).index = s.index := rfl
@[simp] theorem setRng_pc (r : Rng) : (s.setRng r).pc = s.pc := rfl
@[simp] theorem setRng_sp (r : Rng) : (s.setRng r).sp = s.sp := rfl
@[simp] theorem setRng_stack (r : Rng) : (s.setRng r).stack = s.stack := rfl
@[simp] theorem setRng_dt (r : Rng) : (s.setRng r).dt = s.dt := rfl
@[simp] theorem setRng_st (r : Rng) : (s.setRng r).st = s.st := rfl
@[simp] theorem setRng_mem (r : Rng) : (s.setRng r).mem = s.mem := rfl
@[simp] theorem setRng_fb (r : Rng) : (s.setRng r).fb = s.fb := rfl
@[simp] theorem setRng_kp (r : Rng) : (s.setRng r).kp = s.kp := rfl
@[simp] theorem setRng_rng (r : Rng) : (s.setRng r).rng = r := rfl
@[simp] theorem setRng_opcode (r : Rng) : (s.setRng r).opcode = s.opcode := rfl
@[simp] theorem setRng_fault (r : Rng) : (s.setRng r).fault = s.fault := rfl
@[simp] theorem setRng_font (r : Rng) : (s.setRng r).font = s.font := rfl

/-! ### setOpcode -/

@[simp] theorem setOpcode_v (op : Word) : (s.setOpcode op).v = s.v := rfl
@[simp] theorem setOpcode_index (op : Word) : (s.setOpcode op).index = s.index := rfl
@[simp] theorem setOpcode_pc (op : Word) : (s.setOpcode op).pc = s.pc := rfl
@[simp] theorem setOpcode_sp (op : Word) : (s.setOpcode op).sp = s.sp := rfl
@[simp] theorem setOpcode_stack (op : Word) : (s.setOpcode op).stack = s.stack := rfl
@[simp] theorem setOpcode_dt (op : Word) : (s.setOpcode op).dt = s.dt := rfl
@[simp] theorem setOpcode_st (op : Word) : (s.setOpcode op).st = s.st := rfl
@[simp] theorem setOpcode_mem (op : Word) : (s.setOpcode op).mem = s.mem := rfl
@[simp] theorem setOpcode_fb (op : Word) : (s.setOpcode op).fb = s.fb := rfl
@[simp] theorem setOpcode_kp (op : Word) : (s.setOpcode op).kp = s.kp := rfl
@[simp] theorem setOpcode_rng (op : Word) : (s.setOpcode op).rng = s.rng := rfl
@[simp] theorem setOpcode_opcode (op : Word) : (s.setOpcode op).opcode = op := rfl
@[simp] theorem setOpcode_fault (op : Word) : (s.setOpcode op).fault = s.fault := rfl
@[simp] theorem setOpcode_font (op : Word) : (s.setOpcode op).font = s.font := rfl

/-! ### setFault -/

@[simp] theorem setFault_v (c : FaultStatus) : (s.setFault c).v = s.v := rfl
@[simp] theorem setFault_index (c : FaultStatus) : (s.setFault c).index = s.index := rfl
@[simp] theorem setFault_pc (c : FaultStatus) : (s.setFault c).pc = s.pc := rfl
@[simp] theorem setFault_sp (c : FaultStatus) : (s.setFault c).sp = s.sp := rfl
@[simp] theorem setFault_stack (c : FaultStatus) : (s.setFault c).stack = s.stack := rfl
@[simp] theorem setFault_dt (c : FaultStatus) : (s.setFault c).dt = s.dt := rfl
@[simp] theorem setFault_st (c : FaultStatus) : (s.setFault c).st = s.st := rfl
@[simp] theorem setFault_mem (c : FaultStatus) : (s.setFault c).mem = s.mem := rfl
@[simp] theorem setFault_fb (c : FaultStatus) : (s.setFault c).fb = s.fb := rfl
@[simp] theorem setFault_kp (c : FaultStatus) : (s.setFault c).kp = s.kp := rfl
@[simp] theorem setFault_rng (c : FaultStatus) : (s.setFault c).rng = s.rng := rfl
@[simp] theorem setFault_opcode (c : FaultStatus) : (s.setFault c).opcode = s.opcode := rfl
@[simp] theorem setFault_fault (c : FaultStatus) : (s.setFault c).fault = c := rfl
@[simp] theorem setFault_font (c : FaultStatus) : (s.setFault c).font = s.font := rfl

/-! ### The accessors after an update -/

@[simp] theorem getV_setV_same (x : Reg) (b : Byte) : (s.setV x b).getV x = b := by simp [getV]

theorem getV_setV (x r : Reg) (b : Byte) : (s.setV x b).getV r = if r = x then b else s.getV r := by
  by_cases h : r = x
  · subst h; simp
  · have : (x : Nat) ≠ r := fun e => h (Fin.ext e.symm)
    simp [getV, h, Vector.getElem_set_ne, this]

@[simp] theorem getV_setV_ne {x r : Reg} (b : Byte) (h : r ≠ x) : (s.setV x b).getV r = s.getV r := by
  simp [getV_setV, h]

theorem key_setKey (k j : Key) (p : Bool) : (s.setKey k p).key j = if j = k then p else s.key j := by
  by_cases h : j = k
  · subst h; simp [key]
  · have : (k : Nat) ≠ j := fun e => h (Fin.ext e.symm)
    simp [key, h, Vector.getElem_set_ne, this]

@[simp] theorem readByte_setV (x : Reg) (b : Byte) (i : Nat) : (s.setV x b).readByte i = s.readByte i := rfl
@[simp] theorem cell_setV (x : Reg) (b : Byte) (i : Fin 32) (l : Fin 64) : (s.setV x b).cell i l = s.cell i l := rfl
@[simp] theorem key_setV (x : Reg) (b : Byte) (i : Key) : (s.setV x b).key i = s.key i := rfl
@[simp] theorem getV_setIndex (w : Word) (i : Reg) : (s.setIndex w).getV i = s.getV i := rfl
@[simp] theorem readByte_setIndex (w : Word) (i : Nat) : (s.setIndex w).readByte i = s.readByte i := rfl
@[simp] theorem cell_setIndex (w : Word) (i : Fin 32) (l : Fin 64) : (s.setIndex w).cell i l = s.cell i l := rfl
@[simp] theorem key_setIndex (w : Word) (i : Key) : (s.setIndex w).key i = s.key i := rfl
@[simp] theorem getV_setPc (w : Word) (i : Reg) : (s.setPc w).getV i = s.getV i := rfl
@[simp] theorem readByte_setPc (w : Word) (i : Nat) : (s.setPc w).readByte i = s.readByte i := rfl
@[simp] theorem cell_setPc (w : Word) (i : Fin 32) (l : Fin 64) : (s.setPc w).cell i l = s.cell i l := rfl
@[simp] theorem key_setPc (w : Word) (i : Key) : (s.setPc w).key i = s.key i := rfl
@[simp] theorem getV_setSp (b : Byte) (i : Reg) : (s.setSp b).getV i = s.getV i := rfl
@[simp] theorem readByte_setSp (b : Byte) (i : Nat) : (s.setSp b).readByte i = s.readByte i := rfl
@[simp] theorem cell_setSp (b : Byte) (i : Fin 32) (l : Fin 64) : (s.setSp b).cell i l = s.cell i l := rfl
@[simp] theorem key_setSp (b : Byte) (i : Key) : (s.setSp b).key i = s.key i := rfl
@[simp] theorem getV_setStack (j : Fin 16) (w : Word) (i : Reg) : (s.setStack j w).getV i = s.getV i := rfl
@[simp] theorem readByte_setStack (j : Fin 16) (w : Word) (i : Nat) : (s.setStack j w).readByte i = s.readByte i := rfl
@[simp] theorem cell_setStack (j : Fin 16) (w : Word) (i : Fin 32) (l : Fin 64) : (s.setStack j w).cell i l = s.cell i l := rfl
@[simp] theorem key_setStack (j : Fin 16) (w : Word) (i : Key) : (s.setStack j w).key i = s.key i := rfl
@[simp] theorem getV_setDt (b : Byte) (i : Reg) : (s.setDt b).getV i = s.getV i := rfl
@[simp] theorem readByte_setDt (b : Byte) (i : Nat) : (s.setDt b).readByte i = s.readByte i := rfl
@[simp] theorem cell_setDt (b : Byte) (i : Fin 32) (l : Fin 64) : (s.setDt b).cell i l = s.cell i l := rfl
@[simp] theorem key_setDt (b : Byte) (i : Key) : (s.setDt b).key i = s.key i := rfl
@[simp] theorem getV_setSt (b : Byte) (i : Reg) : (s.setSt b).getV i = s.getV i := rfl
@[simp] theorem readByte_setSt (b : Byte) (i : Nat) : (s.setSt b).readByte i = s.readByte i := rfl
@[simp] theorem cell_setSt (b : Byte) (i : Fin 32) (l : Fin 64) : (s.setSt b).cell i l = s.cell i l := rfl
@[simp] theorem key_setSt (b : Byte) (i : Key) : (s.setSt b).key i = s.key i := rfl
@[simp] theorem getV_writeByte (a : Nat) (b : Byte) (i : Reg) : (s.writeByte a b).getV i = s.getV i := rfl
@[simp] theorem cell_writeByte (a : Nat) (b : Byte) (r : Fin 32) (c : Fin 64) : (s.writeByte a b).cell r c = s.cell r c := rfl
@[simp] theorem key_writeByte (a : Nat) (b : Byte) (i : Key) : (s.writeByte a b).key i = s.key i := rfl
@[simp] theorem getV_setFb (fb : FrameBuffer) (i : Reg) : (s.setFb fb).getV i = s.getV i := rfl
@[simp] theorem readByte_setFb (fb : FrameBuffer) (i : Nat) : (s.setFb fb).readByte i = s.readByte i := rfl
@[simp] theorem key_setFb (fb : FrameBuffer) (i : Key) : (s.setFb fb).key i = s.key i := rfl
@[simp] theorem getV_setKey (k : Key) (p : Bool) (i : Reg) : (s.setKey k p).getV i = s.getV i := rfl
@[simp] theorem readByte_setKey (k : Key) (p : Bool) (i : Nat) : (s.setKey k p).readByte i = s.readByte i := rfl
@[simp] theorem cell_setKey (k : Key) (p : Bool) (i : Fin 32) (l : Fin 64) : (s.setKey k p).cell i l = s.cell i l := rfl
@[simp] theorem getV_setRng (r : Rng) (i : Reg) : (s.setRng r).getV i = s.getV i := rfl
@[simp] theorem readByte_setRng (r : Rng) (i : Nat) : (s.setRng r).readByte i = s.readByte i := rfl
@[simp] theorem cell_setRng (r : Rng) (i : Fin 32) (l : Fin 64) : (s.setRng r).cell i l = s.cell i l := rfl
@[simp] theorem key_setRng (r : Rng) (i : Key) : (s.setRng r).key i = s.key i := rfl
@[simp] theorem getV_setOpcode (op : Word) (i : Reg) : (s.setOpcode op).getV i = s.getV i := rfl
@[simp] theorem readByte_setOpcode (op : Word) (i : Nat) : (s.setOpcode op).readByte i = s.readByte i := rfl
@[simp] theorem cell_setOpcode (op : Word) (i : Fin 32) (l : Fin 64) : (s.setOpcode op).cell i l = s.cell i l := rfl
@[simp] theorem key_setOpcode (op : Word) (i : Key) : (s.setOpcode op).key i = s.key i := rfl
@[simp] theorem getV_setFault (c : FaultStatus) (i : Reg) : (s.setFault c).getV i = s.getV i := rfl
@[simp] theorem readByte_setFault (c : FaultStatus) (i : Nat) : (s.setFault c).readByte i = s.readByte i := rfl
@[simp] theorem cell_setFault (c : FaultStatus) (i : Fin 32) (l : Fin 64) : (s.setFault c).cell i l = s.cell i l := rfl
@[simp] theorem key_setFault (c : FaultStatus) (i : Key) : (s.setFault c).key i = s.key i := rfl

/-! ### skipIf changes PC only -/

@[simp] theorem skipIf_v (c : Bool) : (s.skipIf c).v = s.v := by cases c <;> rfl
@[simp] theorem skipIf_index (c : Bool) : (s.skipIf c).index = s.index := by cases c <;> rfl
@[simp] theorem skipIf_pc (c : Bool) : (s.skipIf c).pc = if c then s.pc + 2 else s.pc := by cases c <;> rfl
@[simp] theorem skipIf_sp (c : Bool) : (s.skipIf c).sp = s.sp := by cases c <;> rfl
@[simp] theorem skipIf_stack (c : Bool) : (s.skipIf c).stack = s.stack := by cases c <;> rfl
@[simp] theorem skipIf_dt (c : Bool) : (s.skipIf c).dt = s.dt := by cases c <;> rfl
@[simp] theorem skipIf_st (c : Bool) : (s.skipIf c).st = s.st := by cases c <;> rfl
@[simp] theorem skipIf_mem (c : Bool) : (s.skipIf c).mem = s.mem := by cases c <;> rfl
@[simp] theorem skipIf_fb (c : Bool) : (s.skipIf c).fb = s.fb := by cases c <;> rfl
@[simp] theorem skipIf_kp (c : Bool) : (s.skipIf c).kp = s.kp := by cases c <;> rfl
@[simp] theorem skipIf_rng (c : Bool) : (s.skipIf c).rng = s.rng := by cases c <;> rfl
@[simp] theorem skipIf_opcode (c : Bool) : (s.skipIf c).opcode = s.opcode := by cases c <;> rfl
@[simp] theorem skipIf_fault (c : Bool) : (s.skipIf c).fault = s.fault := by cases c <;> rfl
@[simp] theorem skipIf_font (c : Bool) : (s.skipIf c).font = s.font := by cases c <;> rfl
@[simp] theorem getV_skipIf (c : Bool) (i : Reg) : (s.skipIf c).getV i = s.getV i := by cases c <;> rfl
@[simp] theorem readByte_skipIf (c : Bool) (i : Nat) : (s.skipIf c).readByte i = s.readByte i := by cases c <;> rfl

@[simp] theorem cell_skipIf (c : Bool) (i : Fin 32) (l : Fin 64) : (s.skipIf c).cell i l = s.cell i l := by cases c <;> rfl

/-! ### advanceRng moves the RNG only -/

@[simp] theorem advanceRng_v : s.advanceRng.v = s.v := rfl
@[simp] theorem advanceRng_index : s.advanceRng.index = s.index := rfl
@[simp] theorem advanceRng_pc : s.advanceRng.pc = s.pc := rfl
@[simp] theorem advanceRng_sp : s.advanceRng.sp = s.sp := rfl
@[simp] theorem advanceRng_stack : s.advanceRng.stack = s.stack := rfl
@[simp] theorem advanceRng_dt : s.advanceRng.dt = s.dt := rfl
@[simp] theorem advanceRng_st : s.advanceRng.st = s.st := rfl
@[simp] theorem advanceRng_mem : s.advanceRng.mem = s.mem := rfl
@[simp] theorem advanceRng_fb : s.advanceRng.fb = s.fb := rfl
@[simp] theorem advanceRng_kp : s.advanceRng.kp = s.kp := rfl
@[simp] theorem advanceRng_rng : s.advanceRng.rng = ⟨s.rng.seed, s.rng.draws + 1⟩ := rfl
@[simp] theorem advanceRng_opcode : s.advanceRng.opcode = s.opcode := rfl
@[simp] theorem advanceRng_fault : s.advanceRng.fault = s.fault := rfl
@[simp] theorem getV_advanceRng (i : Reg) : s.advanceRng.getV i = s.getV i := rfl
@[simp] theorem readByte_advanceRng (i : Nat) : s.advanceRng.readByte i = s.readByte i := rfl
@[simp] theorem cell_advanceRng (i : Fin 32) (l : Fin 64) : s.advanceRng.cell i l = s.cell i l := rfl

/-! ### setResultThenFlag writes V[x] and then VF -/

@[simp] theorem setResultThenFlag_index (x : Reg) (b f : Byte) : (s.setResultThenFlag x b f).index = s.index := rfl
@[simp] theorem setResultThenFlag_pc (x : Reg) (b f : Byte) : (s.setResultThenFlag x b f).pc = s.pc := rfl
@[simp] theorem setResultThenFlag_sp (x : Reg) (b f : Byte) : (s.setResultThenFlag x b f).sp = s.sp := rfl
@[simp] theorem setResultThenFlag_stack (x : Reg) (b f : Byte) : (s.setResultThenFlag x b f).stack = s.stack := rfl
@[simp] theorem setResultThenFlag_dt (x : Reg) (b f : Byte) : (s.setResultThenFlag x b f).dt = s.dt := rfl
@[simp] theorem setResultThenFlag_st (x : Reg) (b f : Byte) : (s.setResultThenFlag x b f).st = s.st := rfl
@[simp] theorem setResultThenFlag_mem (x : Reg) (b f : Byte) : (s.setResultThenFlag x b f).mem = s.mem := rfl
@[simp] theorem setResultThenFlag_fb (x : Reg) (b f : Byte) : (s.setResultThenFlag x b f).fb = s.fb := rfl
@[simp] theorem setResultThenFlag_kp (x : Reg) (b f : Byte) : (s.setResultThenFlag x b f).kp = s.kp := rfl
@[simp] theorem setResultThenFlag_rng (x : Reg) (b f : Byte) : (s.setResultThenFlag x b f).rng = s.rng := rfl
@[simp] theorem setResultThenFlag_opcode (x : Reg) (b f : Byte) : (s.setResultThenFlag x b f).opcode = s.opcode := rfl
@[simp] theorem setResultThenFlag_fault (x : Reg) (b f : Byte) : (s.setResultThenFlag x b f).fault = s.fault := rfl
@[simp] theorem setResultThenFlag_font (x : Reg) (b f : Byte) : (s.setResultThenFlag x b f).font = s.font := rfl

/-- VF is the flag, whatever x is; V[x] is the result unless x = 0xF; no other register changes (R99). -/
theorem getV_setResultThenFlag (x r : Reg) (b f : Byte) :
    (s.setResultThenFlag x b f).getV r = if r = regF then f else if r = x then b else s.getV r := by
  simp only [setResultThenFlag, getV_setV]

@[simp] theorem readByte_setResultThenFlag (x : Reg) (b f : Byte) (i : Nat) :
    (s.setResultThenFlag x b f).readByte i = s.readByte i := rfl

@[simp] theorem cell_setResultThenFlag (x : Reg) (b f : Byte) (i : Fin 32) (l : Fin 64) :
    (s.setResultThenFlag x b f).cell i l = s.cell i l := rfl

end Sys2Proof.Machine.State
end

