-- ==== Sys2Proof/Laws/Memory.lean ====
section
/-! SUPPORT. The laws of memory: a read after a write, the canonical form, and sequences of writes (20_memory.md R36, R46). -/

namespace Sys2Proof.Machine

variable (font : Config.Font)

theorem memAddr_lt (a : Nat) : memAddr a < Config.memSize := Nat.mod_lt _ (by decide)

@[simp] theorem memAddr_memAddr (a : Nat) : memAddr (memAddr a) = memAddr a := Nat.mod_mod _ _

theorem memLookup_filter_same (m : Memory) (a : Nat) :
    memLookup font (m.filter fun c => c.1 ≠ a) a = unlisted font a := by
  induction m with
  | nil => rfl
  | cons c rest ih =>
    by_cases h : c.1 = a
    · simpa [h] using ih
    · simpa [h, memLookup] using ih

theorem memLookup_filter_ne (m : Memory) {a b : Nat} (h : b ≠ a) :
    memLookup font (m.filter fun c => c.1 ≠ a) b = memLookup font m b := by
  induction m with
  | nil => rfl
  | cons c rest ih =>
    obtain ⟨k, w⟩ := c
    by_cases hk : k = a
    · have : k ≠ b := fun e => h (e ▸ hk)
      simpa [hk, memLookup, h.symm] using ih
    · simp only [ne_eq, decide_not] at ih
      simp [hk, memLookup, ih]

/-- A lookup after an insertion finds the inserted cell, if no cell before it has its address. -/
theorem memLookup_memInsert (m : Memory) (a b : Nat) (w : Byte) (h : ∀ c ∈ m, c.1 ≠ a) :
    memLookup font (memInsert a w m) b = if b = a then w else memLookup font m b := by
  induction m with
  | nil => simp [memInsert, memLookup, eq_comm]
  | cons c rest ih =>
    obtain ⟨k, u⟩ := c
    have hk : k ≠ a := h (k, u) (by simp)
    have ih := ih fun c hc => h c (by simp [hc])
    by_cases hlt : a < k
    · simp [memInsert, hlt, memLookup, eq_comm]
    · simp only [memInsert, hlt, if_false, memLookup, ih]
      by_cases hb : b = a
      · subst hb; simp [hk]
      · simp [hb]

/-- A read after a write: the value written at its own address, and no change anywhere else (R46). -/
theorem memLookup_memStore (m : Memory) (a b : Nat) (w : Byte) :
    memLookup font (memStore font m a w) b = if b = a then w else memLookup font m b := by
  have hfree : ∀ c ∈ m.filter (fun c => c.1 ≠ a), c.1 ≠ a := fun c hc => by simpa using (List.mem_filter.1 hc).2
  unfold memStore
  by_cases hw : w = unlisted font a
  · by_cases hb : b = a
    · subst hb; simp only [hw, if_true]; exact memLookup_filter_same font m b
    · simp only [hw, if_true, hb, if_false]; exact memLookup_filter_ne font m hb
  · simp only [hw, if_false, memLookup_memInsert font _ _ _ _ hfree]
    by_cases hb : b = a
    · simp [hb]
    · simp only [hb, if_false]; exact memLookup_filter_ne font m hb

theorem mem_memInsert (m : Memory) (a : Nat) (w : Byte) (c : Host.Cell) :
    c ∈ memInsert a w m ↔ c = (a, w) ∨ c ∈ m := by
  induction m with
  | nil => simp [memInsert]
  | cons d rest ih =>
    obtain ⟨k, u⟩ := d
    by_cases hlt : a < k
    · simp [memInsert, hlt]
    · simp only [memInsert, hlt, if_false, List.mem_cons, ih]
      tauto

theorem pairwise_memInsert (m : Memory) (a : Nat) (w : Byte) (hs : m.Pairwise (fun c d => c.1 < d.1))
    (h : ∀ c ∈ m, c.1 ≠ a) : (memInsert a w m).Pairwise (fun c d => c.1 < d.1) := by
  induction m with
  | nil => simp [memInsert]
  | cons d rest ih =>
    obtain ⟨k, u⟩ := d
    rw [List.pairwise_cons] at hs
    have hk : k ≠ a := h (k, u) (by simp)
    have ih := ih hs.2 fun c hc => h c (by simp [hc])
    by_cases hlt : a < k
    · simp only [memInsert, hlt, if_true, List.pairwise_cons]
      refine ⟨fun c hc => ?_, fun c hc => hs.1 c hc, hs.2⟩
      rcases List.mem_cons.1 hc with rfl | hc
      · exact hlt
      · exact Nat.lt_trans hlt (hs.1 c hc)
    · simp only [memInsert, hlt, if_false, List.pairwise_cons]
      refine ⟨fun c hc => ?_, ih⟩
      rcases (mem_memInsert _ _ _ _).1 hc with rfl | hc
      · exact lt_of_le_of_ne (Nat.le_of_not_lt hlt) hk
      · exact hs.1 c hc

/-- A write of one byte keeps the canonical form. -/
theorem memStore_wf {font : Config.Font} {m : Memory} (hm : Memory.wf font m) {a : Nat} (ha : a < Config.memSize) (w : Byte) :
    Memory.wf font (memStore font m a w) := by
  have hfree : ∀ c ∈ m.filter (fun c => c.1 ≠ a), c.1 ≠ a := fun c hc => by simpa using (List.mem_filter.1 hc).2
  have hsub : ∀ c ∈ m.filter (fun c => c.1 ≠ a), c.1 < Config.memSize ∧ c.2 ≠ unlisted font c.1 :=
    fun c hc => hm.2 c (List.mem_filter.1 hc).1
  unfold memStore
  by_cases hw : w = unlisted font a
  · simp only [hw, if_true]
    exact ⟨hm.1.filter _, hsub⟩
  · simp only [hw, if_false]
    refine ⟨pairwise_memInsert _ _ _ (hm.1.filter _) hfree, fun c hc => ?_⟩
    rcases (mem_memInsert _ _ _ _).1 hc with rfl | hc
    · exact ⟨ha, hw⟩
    · exact hsub c hc

/-- The memory after `Reset` is in canonical form. -/
theorem resetWith_mem_wf (seed : Nat) : Memory.wf font (State.resetWith font seed).mem := by
  simp [State.resetWith, Memory.wf]

/-! ### Bytes of a state -/

namespace State

variable (s : State)

/-- Reads depend on the address modulo 4096 only (R36). -/
theorem readByte_congr {a b : Nat} (h : memAddr a = memAddr b) : s.readByte a = s.readByte b := by
  simp [readByte, h]

/-- A read after a write of one byte, each address reduced modulo 4096 (R36, R46). -/
theorem readByte_writeByte (a b : Nat) (w : Byte) :
    (s.writeByte a w).readByte b = if memAddr b = memAddr a then w else s.readByte b :=
  memLookup_memStore _ _ _ _ _

@[simp] theorem readByte_writeByte_same (a : Nat) (w : Byte) : (s.writeByte a w).readByte a = w := by
  simp [readByte_writeByte]

theorem writeByte_mem_wf (hm : Memory.wf s.font s.mem) (a : Nat) (w : Byte) : Memory.wf s.font (s.writeByte a w).mem :=
  memStore_wf hm (memAddr_lt a) w

/-! ### Sequences of bytes: only M changes -/

theorem writeBytes_mem_wf (hm : Memory.wf s.font s.mem) (a : Nat) (ws : List Byte) : Memory.wf s.font (s.writeBytes a ws).mem := by
  induction ws generalizing s a with
  | nil => exact hm
  | cons w ws ih => exact ih _ (writeByte_mem_wf s hm a w) _

/-- Everything but M is as it was: a write of bytes replaces M only. -/
theorem writeBytes_eq (a : Nat) (ws : List Byte) : s.writeBytes a ws = { s with mem := (s.writeBytes a ws).mem } := by
  induction ws generalizing s a with
  | nil => rfl
  | cons w ws ih => exact ih (s.writeByte a w) (a + 1)

@[simp] theorem writeBytes_v (a : Nat) (ws : List Byte) : (s.writeBytes a ws).v = s.v := by rw [writeBytes_eq]
@[simp] theorem writeBytes_index (a : Nat) (ws : List Byte) : (s.writeBytes a ws).index = s.index := by rw [writeBytes_eq]
@[simp] theorem writeBytes_pc (a : Nat) (ws : List Byte) : (s.writeBytes a ws).pc = s.pc := by rw [writeBytes_eq]
@[simp] theorem writeBytes_sp (a : Nat) (ws : List Byte) : (s.writeBytes a ws).sp = s.sp := by rw [writeBytes_eq]
@[simp] theorem writeBytes_stack (a : Nat) (ws : List Byte) : (s.writeBytes a ws).stack = s.stack := by rw [writeBytes_eq]
@[simp] theorem writeBytes_dt (a : Nat) (ws : List Byte) : (s.writeBytes a ws).dt = s.dt := by rw [writeBytes_eq]
@[simp] theorem writeBytes_st (a : Nat) (ws : List Byte) : (s.writeBytes a ws).st = s.st := by rw [writeBytes_eq]
@[simp] theorem writeBytes_fb (a : Nat) (ws : List Byte) : (s.writeBytes a ws).fb = s.fb := by rw [writeBytes_eq]
@[simp] theorem writeBytes_kp (a : Nat) (ws : List Byte) : (s.writeBytes a ws).kp = s.kp := by rw [writeBytes_eq]
@[simp] theorem writeBytes_rng (a : Nat) (ws : List Byte) : (s.writeBytes a ws).rng = s.rng := by rw [writeBytes_eq]
@[simp] theorem writeBytes_opcode (a : Nat) (ws : List Byte) : (s.writeBytes a ws).opcode = s.opcode := by rw [writeBytes_eq]
@[simp] theorem writeBytes_fault (a : Nat) (ws : List Byte) : (s.writeBytes a ws).fault = s.fault := by rw [writeBytes_eq]
@[simp] theorem writeBytes_font (a : Nat) (ws : List Byte) : (s.writeBytes a ws).font = s.font := by rw [writeBytes_eq]
@[simp] theorem getV_writeBytes (a : Nat) (ws : List Byte) (x : Reg) : (s.writeBytes a ws).getV x = s.getV x := by
  simp [getV]
@[simp] theorem cell_writeBytes (a : Nat) (ws : List Byte) (r : Fin 32) (c : Fin 64) :
    (s.writeBytes a ws).cell r c = s.cell r c := by
  simp [cell]
@[simp] theorem key_writeBytes (a : Nat) (ws : List Byte) (k : Key) : (s.writeBytes a ws).key k = s.key k := by
  simp [key]

/-- A byte outside the written ones reads as before. -/
theorem readByte_writeBytes_outside (a b : Nat) (ws : List Byte)
    (h : ∀ i, i < ws.length → memAddr b ≠ memAddr (a + i)) : (s.writeBytes a ws).readByte b = s.readByte b := by
  induction ws generalizing s a with
  | nil => rfl
  | cons w ws ih =>
    have h0 : memAddr b ≠ memAddr a := by simpa using h 0 (by simp)
    have hrest : ∀ i, i < ws.length → memAddr b ≠ memAddr (a + 1 + i) := fun i hi => by
      have := h (i + 1) (by simpa using hi)
      rwa [Nat.add_comm i 1, ← Nat.add_assoc] at this
    simp only [writeBytes, ih _ _ hrest, readByte_writeByte, h0, if_false]

/-- The i-th written byte reads as the i-th value, as long as the sequence does not run past itself. -/
theorem readByte_writeBytes_inside (a i : Nat) (ws : List Byte) (hlen : ws.length ≤ Config.memSize)
    (hi : i < ws.length) : (s.writeBytes a ws).readByte (a + i) = ws[i] := by
  induction ws generalizing s a i with
  | nil => simp at hi
  | cons w ws ih =>
    have hlen' : ws.length < 4096 := by simpa using hlen
    cases i with
    | zero =>
      have hout : ∀ j, j < ws.length → memAddr (a + 0) ≠ memAddr (a + 1 + j) := fun j hj => by
        simp only [memAddr, Config.memSize]; omega
      simp only [writeBytes, List.getElem_cons_zero]
      rw [readByte_writeBytes_outside _ _ _ _ hout]
      simp
    | succ j =>
      have hj : j < ws.length := by simpa using hi
      have := ih (s.writeByte a w) (a + 1) j (Nat.le_of_lt hlen') hj
      simpa [writeBytes, Nat.add_assoc, Nat.add_comm 1 j] using this

end State

end Sys2Proof.Machine
end

