-- ==== Sys2Proof/Laws/Display.lean ====
section
/-! SUPPORT. What drawing does, said once: one pixel, one row of bits, all the rows (41_display.md R72 to R76). -/

namespace Sys2Proof.Machine

/-- A pixel on the screen toggles its own cell and no other; one off the screen changes nothing (R74, R75). -/
theorem plot_cell (row col : Nat) (d : FrameBuffer × Bool) (r : Fin 32) (c : Fin 64) :
    (plot row col d).1[r][c] = (d.1[r][c] ^^ decide (r.val = row ∧ c.val = col)) := by
  unfold plot
  split
  case isFalse h =>
    have : ¬(r.val = row ∧ c.val = col) := fun e => h ⟨e.1 ▸ r.isLt, e.2 ▸ c.isLt⟩
    simp [this]
  case isTrue h =>
    have key : ∀ b : Bool, (d.1.set row (d.1[row].set col b))[r.val][c.val] =
        if r.val = row ∧ c.val = col then b else d.1[r.val][c.val] := by
      intro b
      by_cases hr : r.val = row
      · subst hr
        by_cases hc : c.val = col
        · subst hc; simp
        · simp [hc, Vector.getElem_set_ne, Ne.symm hc]
      · simp [hr, Vector.getElem_set_ne, Ne.symm hr]
    split
    case isTrue hon =>
      simp only [Fin.getElem_fin, key]
      split
      case isTrue e => obtain ⟨rfl, rfl⟩ := e; simp [hon]
      case isFalse e => simp [e]
    case isFalse hoff =>
      simp only [Fin.getElem_fin, key]
      split
      case isTrue e => obtain ⟨rfl, rfl⟩ := e; simpa using hoff
      case isFalse e => simp [e]

/-- A pixel collides exactly when its cell is on the screen and on; an earlier collision is kept (R75). -/
theorem plot_collided (row col : Nat) (d : FrameBuffer × Bool) :
    (plot row col d).2 = true ↔
      d.2 = true ∨ ∃ (r : Fin 32) (c : Fin 64), r.val = row ∧ c.val = col ∧ d.1[r][c] = true := by
  unfold plot
  split
  case isFalse h =>
    refine ⟨Or.inl, fun e => e.resolve_right ?_⟩
    rintro ⟨r, c, rfl, rfl, -⟩
    exact h ⟨r.isLt, c.isLt⟩
  case isTrue h =>
    split
    case isTrue hon => exact ⟨fun _ => .inr ⟨⟨row, h.1⟩, ⟨col, h.2⟩, rfl, rfl, hon⟩, fun _ => rfl⟩
    case isFalse hoff =>
      refine ⟨Or.inl, fun e => e.resolve_right ?_⟩
      rintro ⟨r, c, rfl, rfl, hon⟩
      exact hoff hon

/-- The pixels that the first k bits of a row's byte cover. -/
def BitsCover (b : Byte) (row c0 k : Nat) (r : Fin 32) (c : Fin 64) : Prop :=
  r.val = row ∧ ∃ j, j < k ∧ b.getLsbD (7 - j) = true ∧ c.val = c0 + j

/-- The first k + 1 bits cover what the first k do, and the pixel of bit k. -/
theorem bitsCover_succ (b : Byte) (row c0 k : Nat) (r : Fin 32) (c : Fin 64) :
    BitsCover b row c0 (k + 1) r c ↔
      BitsCover b row c0 k r c ∨ (b.getLsbD (7 - k) = true ∧ r.val = row ∧ c.val = c0 + k) := by
  constructor
  · rintro ⟨hr, j, hj, hb, hc⟩
    by_cases e : j = k
    · subst e; exact .inr ⟨hb, hr, hc⟩
    · exact .inl ⟨hr, j, by omega, hb, hc⟩
  · rintro (⟨hr, j, hj, hb, hc⟩ | ⟨hb, hr, hc⟩)
    · exact ⟨hr, j, by omega, hb, hc⟩
    · exact ⟨hr, k, by omega, hb, hc⟩

/-- No two bits of a row fall on one cell (R75), so the pixel of bit k is none of the earlier ones. -/
theorem not_bitsCover_at (b : Byte) (row c0 k : Nat) (r : Fin 32) (c : Fin 64) (hc : c.val = c0 + k) :
    ¬ BitsCover b row c0 k r c := by
  rintro ⟨-, j, hj, -, hcj⟩
  omega

open Classical in
/-- The bits of a row toggle the cells they cover. -/
theorem plotBits_cell (b : Byte) (row c0 k : Nat) (d : FrameBuffer × Bool) (r : Fin 32) (c : Fin 64) :
    (plotBits b row c0 k d).1[r][c] = (d.1[r][c] ^^ decide (BitsCover b row c0 k r c)) := by
  induction k with
  | zero => simp [plotBits, BitsCover]
  | succ k ih =>
    simp only [plotBits]
    split
    case isTrue hb =>
      rw [plot_cell, ih]
      by_cases e : r.val = row ∧ c.val = c0 + k
      · have := not_bitsCover_at b row c0 k r c e.2
        simp [this, bitsCover_succ, hb, e]
      · simp [bitsCover_succ, hb, e]
    case isFalse hb => simpa [bitsCover_succ, hb] using ih

/-- The bits of a row collide exactly when one of them covers a cell that is on. -/
theorem plotBits_collided (b : Byte) (row c0 k : Nat) (d : FrameBuffer × Bool) :
    (plotBits b row c0 k d).2 = true ↔
      d.2 = true ∨ ∃ (r : Fin 32) (c : Fin 64), BitsCover b row c0 k r c ∧ d.1[r][c] = true := by
  classical
  induction k with
  | zero => simp [plotBits, BitsCover]
  | succ k ih =>
    simp only [plotBits]
    split
    case isTrue hb =>
      rw [plot_collided, ih, or_assoc]
      refine or_congr_right ?_
      simp only [bitsCover_succ, plotBits_cell]
      constructor
      · rintro (⟨r, c, hcov, hon⟩ | ⟨r, c, hr, hc, hon⟩)
        · exact ⟨r, c, .inl hcov, hon⟩
        · have := not_bitsCover_at b row c0 k r c hc
          exact ⟨r, c, .inr ⟨hb, hr, hc⟩, by simpa [this] using hon⟩
      · rintro ⟨r, c, hcov | ⟨-, hr, hc⟩, hon⟩
        · exact .inl ⟨r, c, hcov, hon⟩
        · have := not_bitsCover_at b row c0 k r c hc
          exact .inr ⟨r, c, hr, hc, by simpa [this] using hon⟩
    case isFalse hb => simp [ih, bitsCover_succ, hb]

/-- The cells that the first n rows of a sprite cover. -/
def RowsCover (s : State) (r0 c0 n : Nat) (r : Fin 32) (c : Fin 64) : Prop :=
  ∃ k, k < n ∧ BitsCover (s.readByte (s.indexAddr k)) (r0 + k) c0 8 r c

theorem rowsCover_succ (s : State) (r0 c0 n : Nat) (r : Fin 32) (c : Fin 64) :
    RowsCover s r0 c0 (n + 1) r c ↔
      RowsCover s r0 c0 n r c ∨ BitsCover (s.readByte (s.indexAddr n)) (r0 + n) c0 8 r c := by
  constructor
  · rintro ⟨k, hk, h⟩
    by_cases e : k = n
    · subst e; exact .inr h
    · exact .inl ⟨k, by omega, h⟩
  · rintro (⟨k, hk, h⟩ | h)
    · exact ⟨k, by omega, h⟩
    · exact ⟨n, by omega, h⟩

/-- A row's pixels are in no earlier row. -/
theorem not_rowsCover_of_bitsCover {s : State} {b : Byte} {r0 c0 n k : Nat} {r : Fin 32} {c : Fin 64}
    (h : BitsCover b (r0 + n) c0 k r c) : ¬ RowsCover s r0 c0 n r c := by
  rintro ⟨j, hj, hr, -⟩
  have := h.1
  omega

open Classical in
/-- The rows of a sprite toggle the cells they cover: FB' = FB XOR mask (R75). -/
theorem plotRows_cell (s : State) (r0 c0 n : Nat) (r : Fin 32) (c : Fin 64) :
    (plotRows s r0 c0 n).1[r][c] = (s.cell r c ^^ decide (RowsCover s r0 c0 n r c)) := by
  induction n with
  | zero => simp [plotRows, RowsCover, State.cell]
  | succ n ih =>
    simp only [plotRows, plotBits_cell, ih]
    by_cases h : BitsCover (s.readByte (s.indexAddr n)) (r0 + n) c0 8 r c
    · simp [rowsCover_succ, h, not_rowsCover_of_bitsCover h]
    · simp [rowsCover_succ, h]

/-- The rows of a sprite collide exactly when one of them covers a cell that was on (R75). -/
theorem plotRows_collided (s : State) (r0 c0 n : Nat) :
    (plotRows s r0 c0 n).2 = true ↔ ∃ r c, RowsCover s r0 c0 n r c ∧ s.cell r c = true := by
  classical
  induction n with
  | zero => simp [plotRows, RowsCover]
  | succ n ih =>
    simp only [plotRows, plotBits_collided, ih, plotRows_cell, rowsCover_succ]
    constructor
    · rintro (⟨r, c, hcov, hon⟩ | ⟨r, c, hcov, hon⟩)
      · exact ⟨r, c, .inl hcov, hon⟩
      · exact ⟨r, c, .inr hcov, by simpa [not_rowsCover_of_bitsCover hcov] using hon⟩
    · rintro ⟨r, c, hcov | hcov, hon⟩
      · exact .inl ⟨r, c, hcov, hon⟩
      · exact .inr ⟨r, c, hcov, by simpa [not_rowsCover_of_bitsCover hcov] using hon⟩

/-- The loop's cells are the sprite's mask. -/
theorem rowsCover_iff_spriteCovers (s : State) (x y : Reg) (n : Fin 16) (r : Fin 32) (c : Fin 64) :
    RowsCover s (startRow (s.getV y)) (startColumn (s.getV x)) n r c ↔ s.SpriteCovers x y n r c := by
  constructor
  · rintro ⟨k, hk, hr, j, hj, hb, hc⟩
    exact ⟨k, j, hk, hj, hb, hr, hc⟩
  · rintro ⟨k, j, hk, hj, hb, hr, hc⟩
    exact ⟨k, hk, hr, j, hj, hb, hc⟩

end Sys2Proof.Machine
end

