-- ==== Sys2Proof/Laws/Operands.lean ====
section
/-! SUPPORT. What the operand forms, the flags, the register lists and the key scan give, as numbers (R53, R86, R93 to
R97, R102 to R105, R110). -/

namespace Sys2Proof.Machine

@[simp] theorem toNat_zextAddr (nnn : Addr) : (zextAddr nnn).toNat = nnn.toNat := by
  have := nnn.isLt
  simp only [zextAddr, BitVec.toNat_setWidth]
  omega

@[simp] theorem toNat_zextByte (b : Byte) : (zextByte b).toNat = b.toNat := by
  have := b.isLt
  simp only [zextByte, BitVec.toNat_setWidth]
  omega

/-- The low nibble as a number. -/
theorem toNat_and_low_nibble (b : Byte) : (b &&& 0xF).toNat = b.toNat % 16 := by
  simpa using Nat.and_two_pow_sub_one_eq_mod b.toNat 4

@[simp] theorem toNat_glyphAddr (b : Byte) : (glyphAddr b).toNat = 0x50 + 5 * (b.toNat % 16) := by
  simp only [glyphAddr, BitVec.toNat_add, BitVec.toNat_mul, toNat_zextByte, toNat_and_low_nibble]
  simp
  omega

@[simp] theorem val_keyOf (b : Byte) : (keyOf b).val = b.toNat % 16 := by
  simp only [keyOf, Fin.ofNat, toNat_and_low_nibble, Nat.mod_mod]

@[simp] theorem toNat_hundreds (b : Byte) : (hundreds b).toNat = b.toNat / 100 := by simp [hundreds]

@[simp] theorem toNat_tens (b : Byte) : (tens b).toNat = b.toNat / 10 % 10 := by simp [tens]

@[simp] theorem toNat_ones (b : Byte) : (ones b).toNat = b.toNat % 10 := by simp [ones]

theorem toNat_shiftedOutRight (a : Byte) : (shiftedOutRight a).toNat = a.toNat % 2 := by
  simp [shiftedOutRight]

theorem toNat_shiftedOutLeft (a : Byte) : (shiftedOutLeft a).toNat = a.toNat / 128 := by
  have h := Nat.and_two_pow_sub_one_eq_mod (a.toNat / 128) 1
  have := a.isLt
  simp [shiftedOutLeft, Nat.shiftRight_eq_div_pow] at *
  omega

/-- The two flags that are comparisons (R93, R94, R96). -/
theorem carryFlag_eq (a b : Byte) : carryFlag a b = if a.toNat + b.toNat > 255 then 1 else 0 := by
  simp [carryFlag, flagOf]

theorem greaterFlag_eq (a b : Byte) : greaterFlag a b = if a.toNat > b.toNat then 1 else 0 := by
  simp [greaterFlag, flagOf, BitVec.lt_def]

@[simp] theorem val_regOf (n : Nat) (h : n < 16) : (regOf n).val = n := by
  simp [regOf, Fin.ofNat, Nat.mod_eq_of_lt h]

@[simp] theorem regOf_val (x : Reg) : regOf x.val = x := Fin.ext (val_regOf _ x.isLt)

namespace State

variable (s : State)

@[simp] theorem length_firstRegs (n : Nat) : (s.firstRegs n).length = n := by simp [firstRegs]

theorem getElem_firstRegs (n i : Nat) (h : i < (s.firstRegs n).length) :
    (s.firstRegs n)[i] = s.getV (regOf i) := by simp [firstRegs]

/-! ### loadRegs writes V[0]..V[n−1] and nothing else -/

/-- loadRegs replaces the registers only. -/
theorem loadRegs_eq (n : Nat) : s.loadRegs n = { s with v := (s.loadRegs n).v } := by
  induction n with
  | zero => rfl
  | succ n ih => simp only [loadRegs, setV]; rw [ih]

@[simp] theorem loadRegs_index (n : Nat) : (s.loadRegs n).index = s.index := by rw [loadRegs_eq]
@[simp] theorem loadRegs_pc (n : Nat) : (s.loadRegs n).pc = s.pc := by rw [loadRegs_eq]
@[simp] theorem loadRegs_sp (n : Nat) : (s.loadRegs n).sp = s.sp := by rw [loadRegs_eq]
@[simp] theorem loadRegs_stack (n : Nat) : (s.loadRegs n).stack = s.stack := by rw [loadRegs_eq]
@[simp] theorem loadRegs_dt (n : Nat) : (s.loadRegs n).dt = s.dt := by rw [loadRegs_eq]
@[simp] theorem loadRegs_st (n : Nat) : (s.loadRegs n).st = s.st := by rw [loadRegs_eq]
@[simp] theorem loadRegs_mem (n : Nat) : (s.loadRegs n).mem = s.mem := by rw [loadRegs_eq]
@[simp] theorem loadRegs_fb (n : Nat) : (s.loadRegs n).fb = s.fb := by rw [loadRegs_eq]
@[simp] theorem loadRegs_kp (n : Nat) : (s.loadRegs n).kp = s.kp := by rw [loadRegs_eq]
@[simp] theorem loadRegs_rng (n : Nat) : (s.loadRegs n).rng = s.rng := by rw [loadRegs_eq]
@[simp] theorem loadRegs_opcode (n : Nat) : (s.loadRegs n).opcode = s.opcode := by rw [loadRegs_eq]
@[simp] theorem loadRegs_fault (n : Nat) : (s.loadRegs n).fault = s.fault := by rw [loadRegs_eq]
@[simp] theorem loadRegs_font (n : Nat) : (s.loadRegs n).font = s.font := by rw [loadRegs_eq]
@[simp] theorem readByte_loadRegs (n a : Nat) : (s.loadRegs n).readByte a = s.readByte a := by simp [readByte]
@[simp] theorem indexAddr_loadRegs (n a : Nat) : (s.loadRegs n).indexAddr a = s.indexAddr a := by simp [indexAddr]

/-- A register below n holds the byte at I plus its number; the others keep their values (R105). -/
theorem getV_loadRegs (n : Nat) (hn : n ≤ 16) (r : Reg) :
    (s.loadRegs n).getV r = if r.val < n then s.readByte (s.indexAddr r) else s.getV r := by
  induction n with
  | zero => rfl
  | succ n ih =>
    have hv : (regOf n).val = n := val_regOf n (by omega)
    simp only [loadRegs, getV_setV, readByte_loadRegs, indexAddr_loadRegs, ih (by omega), Fin.ext_iff, hv]
    by_cases h : r.val = n
    · simp [h]
    · have : (r.val < n + 1) ↔ (r.val < n) := by omega
      simp [h, this]

/-! ### The key scan -/

/-- The scan finds no key exactly when none is pressed (R110). -/
theorem lowestKey_eq_none : s.lowestKey = none ↔ ∀ k, s.key k = false := by
  have hall : ∀ k : Key, k ∈ allKeys := by decide
  simp only [lowestKey, List.find?_eq_none, Bool.not_eq_true]
  exact ⟨fun h k => h k (hall k), fun h k _ => h k⟩

/-- The key found is pressed, and no key below it is (R110). -/
theorem lowestKey_eq_some (k : Key) : s.lowestKey = some k ↔ s.key k = true ∧ ∀ j, j < k → s.key j = false := by
  have hfin : ∀ (p : Key → Bool) (k : Key), allKeys.find? p = some k → p k = true ∧ ∀ j, j < k → p j = false := by
    intro p k h
    refine ⟨List.find?_some h, fun j hj => ?_⟩
    obtain ⟨-, as, bs, hsplit, has⟩ := List.find?_eq_some_iff_append.1 h
    have hpos : ∀ j : Key, j < k → j ∈ as := by
      have hsorted : allKeys.Pairwise (· < ·) := by decide
      have hmem : ∀ j : Key, j ∈ allKeys := by decide
      intro j hj
      have := hmem j
      rw [hsplit] at this hsorted
      rcases List.mem_append.1 this with h | h
      · exact h
      · exfalso
        rw [List.pairwise_append] at hsorted
        rcases List.mem_cons.1 h with rfl | h
        · exact absurd hj (lt_irrefl _)
        · exact absurd hj (not_lt.2 (le_of_lt ((List.pairwise_cons.1 hsorted.2.1).1 j h)))
    simpa using has j (hpos j hj)
  refine ⟨hfin _ k, fun ⟨hk, hlow⟩ => ?_⟩
  cases h : s.lowestKey with
  | none => exact absurd hk (by simp [(lowestKey_eq_none s).1 h k])
  | some j =>
    obtain ⟨hj, hjlow⟩ := hfin _ j h
    rcases lt_trichotomy j k with hlt | rfl | hlt
    · exact absurd hj (by simp [hlow j hlt])
    · rfl
    · exact absurd hk (by simp [hjlow k hlt])

end State

end Sys2Proof.Machine
end

