-- ==== Sys2Proof/Laws/Exec.lean ====
section
/-! SUPPORT. What EXECUTE and a step can do, said once: exec on each constructor, the cases of CALL and RET, the frame of
exec, and the cases of a step (R63, R66, R116, R117). -/

namespace Sys2Proof.Machine

/-! ### exec on each constructor -/

theorem exec_cls (s : State) : exec (.cls) s = execCls s := rfl
theorem exec_ret (s : State) : exec (.ret) s = execRet s := rfl
theorem exec_jp (nnn : Addr) (s : State) : exec (.jp nnn) s = execJp nnn s := rfl
theorem exec_call (nnn : Addr) (s : State) : exec (.call nnn) s = execCall nnn s := rfl
theorem exec_seVxKk (x : Reg) (kk : Byte) (s : State) : exec (.seVxKk x kk) s = execSeVxKk x kk s := rfl
theorem exec_sneVxKk (x : Reg) (kk : Byte) (s : State) : exec (.sneVxKk x kk) s = execSneVxKk x kk s := rfl
theorem exec_seVxVy (x y : Reg) (s : State) : exec (.seVxVy x y) s = execSeVxVy x y s := rfl
theorem exec_ldVxKk (x : Reg) (kk : Byte) (s : State) : exec (.ldVxKk x kk) s = execLdVxKk x kk s := rfl
theorem exec_addVxKk (x : Reg) (kk : Byte) (s : State) : exec (.addVxKk x kk) s = execAddVxKk x kk s := rfl
theorem exec_ldVxVy (x y : Reg) (s : State) : exec (.ldVxVy x y) s = execLdVxVy x y s := rfl
theorem exec_orVxVy (x y : Reg) (s : State) : exec (.orVxVy x y) s = execOrVxVy x y s := rfl
theorem exec_andVxVy (x y : Reg) (s : State) : exec (.andVxVy x y) s = execAndVxVy x y s := rfl
theorem exec_xorVxVy (x y : Reg) (s : State) : exec (.xorVxVy x y) s = execXorVxVy x y s := rfl
theorem exec_addVxVy (x y : Reg) (s : State) : exec (.addVxVy x y) s = execAddVxVy x y s := rfl
theorem exec_subVxVy (x y : Reg) (s : State) : exec (.subVxVy x y) s = execSubVxVy x y s := rfl
theorem exec_shrVx (x y : Reg) (s : State) : exec (.shrVx x y) s = execShrVx x s := rfl
theorem exec_subnVxVy (x y : Reg) (s : State) : exec (.subnVxVy x y) s = execSubnVxVy x y s := rfl
theorem exec_shlVx (x y : Reg) (s : State) : exec (.shlVx x y) s = execShlVx x s := rfl
theorem exec_sneVxVy (x y : Reg) (s : State) : exec (.sneVxVy x y) s = execSneVxVy x y s := rfl
theorem exec_ldI (nnn : Addr) (s : State) : exec (.ldI nnn) s = execLdI nnn s := rfl
theorem exec_jpV0 (nnn : Addr) (s : State) : exec (.jpV0 nnn) s = execJpV0 nnn s := rfl
theorem exec_rnd (x : Reg) (kk : Byte) (s : State) : exec (.rnd x kk) s = execRnd x kk s := rfl
theorem exec_drw (x y : Reg) (n : Fin 16) (s : State) : exec (.drw x y n) s = execDrw x y n s := rfl
theorem exec_skp (x : Reg) (s : State) : exec (.skp x) s = execSkp x s := rfl
theorem exec_sknp (x : Reg) (s : State) : exec (.sknp x) s = execSknp x s := rfl
theorem exec_ldVxDt (x : Reg) (s : State) : exec (.ldVxDt x) s = execLdVxDt x s := rfl
theorem exec_ldVxK (x : Reg) (s : State) : exec (.ldVxK x) s = execLdVxK x s := rfl
theorem exec_ldDtVx (x : Reg) (s : State) : exec (.ldDtVx x) s = execLdDtVx x s := rfl
theorem exec_ldStVx (x : Reg) (s : State) : exec (.ldStVx x) s = execLdStVx x s := rfl
theorem exec_addIVx (x : Reg) (s : State) : exec (.addIVx x) s = execAddIVx x s := rfl
theorem exec_ldFVx (x : Reg) (s : State) : exec (.ldFVx x) s = execLdFVx x s := rfl
theorem exec_ldBVx (x : Reg) (s : State) : exec (.ldBVx x) s = execLdBVx x s := rfl
theorem exec_ldMemVx (x : Reg) (s : State) : exec (.ldMemVx x) s = execLdMemVx x s := rfl
theorem exec_ldVxMem (x : Reg) (s : State) : exec (.ldVxMem x) s = execLdVxMem x s := rfl

/-! ### CALL and RET -/

/-- The three outcomes of CALL: StackOverflow with a full stack, a push, or the stop above the stack (R80, R116). -/
theorem execCall_cases (nnn : Addr) (s : State) :
    (s.sp = 16 ∧ execCall nnn s = .next (s.setFault .stackOverflow)) ∨
    (∃ h : s.sp.toNat < 16, execCall nnn s =
      .next (((s.setStack ⟨s.sp.toNat, h⟩ s.pc).setSp (s.sp + 1)).setPc (zextAddr nnn))) ∨
    (16 < s.sp.toNat ∧ execCall nnn s = .fault .illegalStackPointer) := by
  unfold execCall
  by_cases h16 : s.sp = 16
  · exact .inl ⟨h16, by simp [h16, raiseStackFault]⟩
  · have hne : s.sp.toNat ≠ 16 := fun e => h16 (BitVec.eq_of_toNat_eq (by simpa using e))
    by_cases h : s.sp.toNat < 16
    · exact .inr (.inl ⟨h, by simp only [h16, if_false, stackSlot, h, dif_pos]⟩)
    · exact .inr (.inr ⟨by omega, by simp only [h16, if_false, stackSlot, h, dif_neg, not_false_eq_true]⟩)

/-- The three outcomes of RET: StackUnderflow with an empty stack, a pop, or the stop above the stack (R78, R116). -/
theorem execRet_cases (s : State) :
    (s.sp = 0 ∧ execRet s = .next (s.setFault .stackUnderflow)) ∨
    (∃ h : s.sp.toNat - 1 < 16, s.sp ≠ 0 ∧ execRet s =
      .next ((s.setSp (s.sp - 1)).setPc (s.stack[s.sp.toNat - 1]))) ∨
    (16 < s.sp.toNat ∧ execRet s = .fault .illegalStackPointer) := by
  unfold execRet
  by_cases h0 : s.sp = 0
  · exact .inl ⟨h0, by simp [h0, raiseStackFault]⟩
  · have hne : s.sp.toNat ≠ 0 := fun e => h0 (BitVec.eq_of_toNat_eq (by simpa using e))
    have hlt := s.sp.isLt
    have hsub : (s.sp - 1).toNat = s.sp.toNat - 1 := by
      simp only [BitVec.toNat_sub]
      simp
      omega
    by_cases h : s.sp.toNat - 1 < 16
    · exact .inr (.inl ⟨h, h0, by simp only [h0, if_false, hsub, stackSlot, h, dif_pos]; rfl⟩)
    · exact .inr (.inr ⟨by omega, by simp only [h0, if_false, hsub, stackSlot, h, dif_neg, not_false_eq_true]⟩)

/-! ### tick moves the timers only; FETCH and ADVANCE move the opcode register and PC only -/

namespace State

variable (s : State)

@[simp] theorem tick_v : s.tick.v = s.v := rfl
@[simp] theorem tick_index : s.tick.index = s.index := rfl
@[simp] theorem tick_pc : s.tick.pc = s.pc := rfl
@[simp] theorem tick_sp : s.tick.sp = s.sp := rfl
@[simp] theorem tick_stack : s.tick.stack = s.stack := rfl
@[simp] theorem tick_dt : s.tick.dt = tickTimer s.dt := rfl
@[simp] theorem tick_st : s.tick.st = tickTimer s.st := rfl
@[simp] theorem tick_mem : s.tick.mem = s.mem := rfl
@[simp] theorem tick_fb : s.tick.fb = s.fb := rfl
@[simp] theorem tick_kp : s.tick.kp = s.kp := rfl
@[simp] theorem tick_rng : s.tick.rng = s.rng := rfl
@[simp] theorem tick_opcode : s.tick.opcode = s.opcode := rfl
@[simp] theorem tick_fault : s.tick.fault = s.fault := rfl
@[simp] theorem tick_font : s.tick.font = s.font := rfl
@[simp] theorem started_v : s.fetch.advance.v = s.v := rfl
@[simp] theorem started_index : s.fetch.advance.index = s.index := rfl
@[simp] theorem started_pc : s.fetch.advance.pc = s.pc + 2 := rfl
@[simp] theorem started_sp : s.fetch.advance.sp = s.sp := rfl
@[simp] theorem started_stack : s.fetch.advance.stack = s.stack := rfl
@[simp] theorem started_dt : s.fetch.advance.dt = s.dt := rfl
@[simp] theorem started_st : s.fetch.advance.st = s.st := rfl
@[simp] theorem started_mem : s.fetch.advance.mem = s.mem := rfl
@[simp] theorem started_fb : s.fetch.advance.fb = s.fb := rfl
@[simp] theorem started_kp : s.fetch.advance.kp = s.kp := rfl
@[simp] theorem started_rng : s.fetch.advance.rng = s.rng := rfl
@[simp] theorem started_opcode : s.fetch.advance.opcode = s.fetchWord := rfl
@[simp] theorem started_fault : s.fetch.advance.fault = s.fault := rfl
@[simp] theorem started_font : s.fetch.advance.font = s.font := rfl
@[simp] theorem getV_tick (i : Reg) : s.tick.getV i = s.getV i := rfl
@[simp] theorem readByte_tick (i : Nat) : s.tick.readByte i = s.readByte i := rfl
@[simp] theorem cell_tick (i : Fin 32) (l : Fin 64) : s.tick.cell i l = s.cell i l := rfl
@[simp] theorem key_tick (i : Key) : s.tick.key i = s.key i := rfl
@[simp] theorem getV_started (i : Reg) : s.fetch.advance.getV i = s.getV i := rfl
@[simp] theorem readByte_started (i : Nat) : s.fetch.advance.readByte i = s.readByte i := rfl
@[simp] theorem cell_started (i : Fin 32) (l : Fin 64) : s.fetch.advance.cell i l = s.cell i l := rfl
@[simp] theorem key_started (i : Key) : s.fetch.advance.key i = s.key i := rfl

end State

/-! ### What every instruction keeps -/

/-- No instruction is refused, and one stops only in CALL or RET with SP above 16. -/
theorem exec_stops (i : Instr) (s : State) :
    (∃ t, exec i s = .next t) ∨ (16 < s.sp.toNat ∧ exec i s = .fault .illegalStackPointer) := by
  cases i
  case call nnn =>
    obtain ⟨_, h⟩ | ⟨_, h⟩ | ⟨hsp, h⟩ := execCall_cases nnn s
    · exact .inl ⟨_, h⟩
    · exact .inl ⟨_, h⟩
    · exact .inr ⟨hsp, h⟩
  case ret =>
    obtain ⟨_, h⟩ | ⟨_, _, h⟩ | ⟨hsp, h⟩ := execRet_cases s
    · exact .inl ⟨_, h⟩
    · exact .inl ⟨_, h⟩
    · exact .inr ⟨hsp, h⟩
  case ldVxK x =>
    refine .inl ?_
    rw [exec_ldVxK, execLdVxK]
    split <;> exact ⟨_, rfl⟩
  all_goals exact .inl ⟨_, rfl⟩

/-- EXECUTE never writes KP, the opcode register or the configured font, keeps the canonical form of M, and moves SP, S
and `fault` in CALL and RET only. -/
theorem exec_frame {i : Instr} {s t : State} (h : exec i s = .next t) :
    t.kp = s.kp ∧ t.opcode = s.opcode ∧ t.font = s.font ∧ (Memory.wf s.font s.mem → Memory.wf t.font t.mem) ∧
    ((∀ nnn, i ≠ .call nnn) → i ≠ .ret → t.sp = s.sp ∧ t.stack = s.stack ∧ t.fault = s.fault) := by
  cases i
  case call nnn =>
    obtain ⟨_, e⟩ | ⟨_, e⟩ | ⟨-, e⟩ := execCall_cases nnn s <;> rw [exec_call, e] at h <;> cases h <;>
      exact ⟨rfl, rfl, rfl, id, fun hc => absurd rfl (hc nnn)⟩
  case ret =>
    obtain ⟨_, e⟩ | ⟨_, _, e⟩ | ⟨-, e⟩ := execRet_cases s <;> rw [exec_ret, e] at h <;> cases h <;>
      exact ⟨rfl, rfl, rfl, id, fun _ hr => absurd rfl hr⟩
  case ldVxK x =>
    rw [exec_ldVxK, execLdVxK] at h
    split at h <;> cases h <;> exact ⟨rfl, rfl, rfl, id, fun _ _ => ⟨rfl, rfl, rfl⟩⟩
  case ldBVx x =>
    cases h
    exact ⟨by simp, by simp, by simp, fun hm => by simpa using s.writeBytes_mem_wf hm _ _, fun _ _ => by simp⟩
  case ldMemVx x =>
    cases h
    exact ⟨by simp, by simp, by simp, fun hm => by simpa using s.writeBytes_mem_wf hm _ _, fun _ _ => by simp⟩
  case ldVxMem x =>
    cases h
    exact ⟨by simp, by simp, by simp, by simp, fun _ _ => by simp⟩
  case seVxKk | sneVxKk | seVxVy | sneVxVy | skp | sknp =>
    cases h
    exact ⟨by simp, by simp, by simp, by simp, fun _ _ => by simp⟩
  all_goals
    cases h
    exact ⟨rfl, rfl, rfl, id, fun _ _ => ⟨rfl, rfl, rfl⟩⟩

/-- EXECUTE raises StackFault in two cases only: CALL with a full stack and RET with an empty one; it then writes
nothing but `fault` (R116). -/
theorem exec_raises {i : Instr} {s t : State} (h : exec i s = .next t) (hs : s.fault = .none) (ht : t.fault ≠ .none) :
    ((∃ nnn, i = .call nnn) ∧ s.sp = 16 ∧ t = s.setFault .stackOverflow) ∨
    (i = .ret ∧ s.sp = 0 ∧ t = s.setFault .stackUnderflow) := by
  by_cases hc : ∃ nnn, i = .call nnn
  · obtain ⟨nnn, rfl⟩ := hc
    obtain ⟨hsp, e⟩ | ⟨_, e⟩ | ⟨_, e⟩ := execCall_cases nnn s <;> rw [exec_call, e] at h <;> cases h
    · exact .inl ⟨⟨nnn, rfl⟩, hsp, rfl⟩
    · exact absurd hs ht
  · by_cases hr : i = .ret
    · subst hr
      obtain ⟨hsp, e⟩ | ⟨_, _, e⟩ | ⟨_, e⟩ := execRet_cases s <;> rw [exec_ret, e] at h <;> cases h
      · exact .inr ⟨rfl, hsp, rfl⟩
      · exact absurd hs ht
    · have := ((exec_frame h).2.2.2.2 (fun nnn e => hc ⟨nnn, e⟩) hr).2.2
      exact absurd (this.trans hs) ht

/-! ### The cases of a step -/

/-- A step that answers a next state: the block was Faulted and nothing changed; or EXECUTE completed and the timers
ticked; or it raised StackFault and only `fault` changed (R63, R116, R117). -/
theorem step_cases {s t : State} (h : step s = .next t) :
    (s.fault ≠ .none ∧ t = s) ∨
    ∃ u, s.fault = .none ∧ execHandler (decode s.fetchWord) s.fetch.advance = .next u ∧
      ((u.fault = .none ∧ t = u.tick) ∨ (u.fault ≠ .none ∧ t = s.setFault u.fault)) := by
  unfold step at h
  split at h
  case isFalse hf => cases h; exact .inl ⟨hf, rfl⟩
  case isTrue hf =>
    refine .inr ?_
    cases e : execHandler (decode s.fetchWord) s.fetch.advance with
    | next u =>
      rw [e] at h
      simp only [endCycle] at h
      split at h
      case isTrue hu => cases h; exact ⟨u, hf, rfl, .inl ⟨hu, rfl⟩⟩
      case isFalse hu => cases h; exact ⟨u, hf, rfl, .inr ⟨hu, rfl⟩⟩
    | fault r => rw [e] at h; cases h
    | refused r => rw [e] at h; cases h

/-- A timer after a tick, as a number: one less, and zero stays zero (R68). -/
theorem toNat_tickTimer (b : Byte) : (tickTimer b).toNat = b.toNat - 1 := by
  unfold tickTimer
  split
  case isTrue h => simp [h]
  case isFalse h =>
    have hne : b.toNat ≠ 0 := fun e => h (BitVec.eq_of_toNat_eq (by simpa using e))
    have := b.isLt
    simp only [BitVec.toNat_sub]
    simp
    omega

end Sys2Proof.Machine
end

