-- ==== Sys2Proof/Laws/PerInstr.lean ====
section
/-! SUPPORT. Families of statements about every instruction as syntax, one lemma for each constructor. -/

namespace Sys2Proof.Laws

/-- The form R62 writes for an instruction assembles to it, with the ignored field at its canonical value. -/
def Assembles.Statement (i : Instr) : Prop := assemble i.asm = .ok i.canonical

theorem Assembles.cls : Assembles.Statement .cls := rfl
theorem Assembles.ret : Assembles.Statement .ret := rfl
theorem Assembles.jp (nnn : Addr) : Assembles.Statement (.jp nnn) := by
  simp [Statement, Instr.asm, Instr.canonical, assemble]
theorem Assembles.call (nnn : Addr) : Assembles.Statement (.call nnn) := by
  simp [Statement, Instr.asm, Instr.canonical, assemble]
theorem Assembles.seVxKk (x : Reg) (kk : Byte) : Assembles.Statement (.seVxKk x kk) := by
  simp [Statement, Instr.asm, Instr.canonical, assemble]
theorem Assembles.sneVxKk (x : Reg) (kk : Byte) : Assembles.Statement (.sneVxKk x kk) := by
  simp [Statement, Instr.asm, Instr.canonical, assemble]
theorem Assembles.seVxVy (x y : Reg) : Assembles.Statement (.seVxVy x y) := by
  simp [Statement, Instr.asm, Instr.canonical, assemble]
theorem Assembles.ldVxKk (x : Reg) (kk : Byte) : Assembles.Statement (.ldVxKk x kk) := by
  simp [Statement, Instr.asm, Instr.canonical, assemble]
theorem Assembles.addVxKk (x : Reg) (kk : Byte) : Assembles.Statement (.addVxKk x kk) := by
  simp [Statement, Instr.asm, Instr.canonical, assemble]
theorem Assembles.ldVxVy (x y : Reg) : Assembles.Statement (.ldVxVy x y) := by
  simp [Statement, Instr.asm, Instr.canonical, assemble]
theorem Assembles.orVxVy (x y : Reg) : Assembles.Statement (.orVxVy x y) := by
  simp [Statement, Instr.asm, Instr.canonical, assemble]
theorem Assembles.andVxVy (x y : Reg) : Assembles.Statement (.andVxVy x y) := by
  simp [Statement, Instr.asm, Instr.canonical, assemble]
theorem Assembles.xorVxVy (x y : Reg) : Assembles.Statement (.xorVxVy x y) := by
  simp [Statement, Instr.asm, Instr.canonical, assemble]
theorem Assembles.addVxVy (x y : Reg) : Assembles.Statement (.addVxVy x y) := by
  simp [Statement, Instr.asm, Instr.canonical, assemble]
theorem Assembles.subVxVy (x y : Reg) : Assembles.Statement (.subVxVy x y) := by
  simp [Statement, Instr.asm, Instr.canonical, assemble]
theorem Assembles.shrVx (x y : Reg) : Assembles.Statement (.shrVx x y) := by
  simp [Statement, Instr.asm, Instr.canonical, assemble]
theorem Assembles.subnVxVy (x y : Reg) : Assembles.Statement (.subnVxVy x y) := by
  simp [Statement, Instr.asm, Instr.canonical, assemble]
theorem Assembles.shlVx (x y : Reg) : Assembles.Statement (.shlVx x y) := by
  simp [Statement, Instr.asm, Instr.canonical, assemble]
theorem Assembles.sneVxVy (x y : Reg) : Assembles.Statement (.sneVxVy x y) := by
  simp [Statement, Instr.asm, Instr.canonical, assemble]
theorem Assembles.ldI (nnn : Addr) : Assembles.Statement (.ldI nnn) := by
  simp [Statement, Instr.asm, Instr.canonical, assemble]
theorem Assembles.jpV0 (nnn : Addr) : Assembles.Statement (.jpV0 nnn) := by
  simp [Statement, Instr.asm, Instr.canonical, assemble]
theorem Assembles.rnd (x : Reg) (kk : Byte) : Assembles.Statement (.rnd x kk) := by
  simp [Statement, Instr.asm, Instr.canonical, assemble]
theorem Assembles.drw (x y : Reg) (n : Fin 16) : Assembles.Statement (.drw x y n) := by
  simp [Statement, Instr.asm, Instr.canonical, assemble, Except.map, Except.bind]
theorem Assembles.skp (x : Reg) : Assembles.Statement (.skp x) := by
  simp [Statement, Instr.asm, Instr.canonical, assemble]
theorem Assembles.sknp (x : Reg) : Assembles.Statement (.sknp x) := by
  simp [Statement, Instr.asm, Instr.canonical, assemble]
theorem Assembles.ldVxDt (x : Reg) : Assembles.Statement (.ldVxDt x) := by
  simp [Statement, Instr.asm, Instr.canonical, assemble]
theorem Assembles.ldVxK (x : Reg) : Assembles.Statement (.ldVxK x) := by
  simp [Statement, Instr.asm, Instr.canonical, assemble]
theorem Assembles.ldDtVx (x : Reg) : Assembles.Statement (.ldDtVx x) := by
  simp [Statement, Instr.asm, Instr.canonical, assemble]
theorem Assembles.ldStVx (x : Reg) : Assembles.Statement (.ldStVx x) := by
  simp [Statement, Instr.asm, Instr.canonical, assemble]
theorem Assembles.addIVx (x : Reg) : Assembles.Statement (.addIVx x) := by
  simp [Statement, Instr.asm, Instr.canonical, assemble]
theorem Assembles.ldFVx (x : Reg) : Assembles.Statement (.ldFVx x) := by
  simp [Statement, Instr.asm, Instr.canonical, assemble]
theorem Assembles.ldBVx (x : Reg) : Assembles.Statement (.ldBVx x) := by
  simp [Statement, Instr.asm, Instr.canonical, assemble]
theorem Assembles.ldMemVx (x : Reg) : Assembles.Statement (.ldMemVx x) := by
  simp [Statement, Instr.asm, Instr.canonical, assemble]
theorem Assembles.ldVxMem (x : Reg) : Assembles.Statement (.ldVxMem x) := by
  simp [Statement, Instr.asm, Instr.canonical, assemble]

end Sys2Proof.Laws
end

