-- ==== Sys2Proof/Tests/Slice0.lean ====
section
/-! SUPPORT. Small tests. Every expected value is transcribed from the spec: S1 to S6 and V1 to V96 are the vectors of
95_test_vectors.md, and the words are written out from 30_encoding.md R52. The last part gives, for every statement
with hypotheses, a concrete input that meets them. -/

namespace Sys2Proof.Tests

open Sys2Proof.Machine

/-! ### Helpers -/

/-- The outcome is a next state that passes the check. -/
def nextSat (o : Host.Outcome State Fault Refusal) (p : State → Bool) : Bool :=
  match o with
  | .next t => p t
  | _ => false

/-- The outcome is the model's own fault. -/
def faults (o : Host.Outcome State Fault Refusal) : Bool :=
  match o with
  | .fault r => r == .illegalStackPointer
  | _ => false

theorem exists_next_of_nextSat {o : Host.Outcome State Fault Refusal} {p : State → Bool} (h : nextSat o p = true) :
    ∃ t, o = .next t ∧ p t = true := by
  cases o with
  | next t => exact ⟨t, rfl, h⟩
  | fault r => cases h
  | refused r => cases h

theorem exists_fault_of_faults {o : Host.Outcome State Fault Refusal} (h : faults o = true) : ∃ f, o = .fault f := by
  cases o with
  | next t => cases h
  | fault r => exact ⟨r, rfl⟩
  | refused r => cases h

/-- The reset state with a word at 0x200. -/
def at200 (word : Word) : State := State.reset.placeWord word

/-- Some registers set. -/
def withV (s : State) : List (Reg × Byte) → State
  | [] => s
  | (x, b) :: rest => withV (s.setV x b) rest

/-- Some cells on. -/
def withOn (s : State) : List (Nat × Nat) → State
  | [] => s
  | (r, c) :: rest => withOn (s.setFb (plot r c (s.fb, false)).1) rest

/-- The listed cells are on (off). -/
def cellsAre (s : State) (on : Bool) (cells : List (Fin 32 × Fin 64)) : Bool := cells.all fun c => s.cell c.1 c.2 == on

/-- Some bytes stored from an address on. -/
def withBytes (s : State) (a : Nat) (bytes : List Byte) : State := s.writeBytes a bytes

/-- The state after n steps. -/
def runFrom (s : State) : Nat → State
  | 0 => s
  | n + 1 =>
    match step (runFrom s n) with
    | .next t => t
    | _ => runFrom s n

theorem step_runFrom {s : State} {n : Nat} (h : nextSat (step (runFrom s n)) (fun _ => true) = true) :
    step (runFrom s n) = .next (runFrom s (n + 1)) := by
  obtain ⟨t, ht, -⟩ := exists_next_of_nextSat h
  simp [runFrom, ht]

/-! ### Well-formedness: an ill-formed line for each check (R13, R53, R62) -/

theorem test_wf_no_such_form : assemble ⟨.CLS, [.v 0]⟩ = .error .noSuchForm ∧
    assemble ⟨.LD, [.mi, .num 5]⟩ = .error .noSuchForm ∧ assemble ⟨.JP, [.v 1, .num 0x200]⟩ = .error .noSuchForm := by
  decide

theorem test_wf_no_such_register : assemble ⟨.LD, [.v 16, .num 0]⟩ = .error (.noSuchRegister 16) ∧
    assemble ⟨.SE, [.v 0, .v 16]⟩ = .error (.noSuchRegister 16) ∧ AsmLine.wellFormed ⟨.SKP, [.v 16]⟩ = false := by decide

theorem test_wf_address_too_wide : assemble ⟨.JP, [.num 0x1000]⟩ = .error (.addressTooWide 0x1000) ∧
    AsmLine.wellFormed ⟨.LD, [.i, .num 0x1000]⟩ = false ∧ AsmLine.wellFormed ⟨.LD, [.i, .num 0xFFF]⟩ = true := by decide

theorem test_wf_immediate_too_wide : assemble ⟨.ADD, [.v 3, .num 256]⟩ = .error (.immediateTooWide 256) ∧
    AsmLine.wellFormed ⟨.ADD, [.v 3, .num 255]⟩ = true := by decide

theorem test_wf_row_count_too_wide : assemble ⟨.DRW, [.v 0, .v 1, .num 16]⟩ = .error (.rowCountTooWide 16) ∧
    AsmLine.wellFormed ⟨.DRW, [.v 0, .v 1, .num 15]⟩ = true := by decide

/-- Lines of 95_test_vectors.md Part 3 with the words the listing gives beside them. -/
theorem test_assemble_program_lines :
    (assemble ⟨.ADD, [.v 1, .num 1]⟩).map encode = .ok 0x7101 ∧ (assemble ⟨.LD, [.b, .v 10]⟩).map encode = .ok 0xFA33 ∧
    (assemble ⟨.LD, [.mi, .v 1]⟩).map encode = .ok 0xF155 ∧ (assemble ⟨.DRW, [.v 0, .v 2, .num 5]⟩).map encode = .ok 0xD025 := by
  decide

/-! ### Decoding: a word for every row, written bit by bit from R52 -/

theorem test_decode_display_words :
    decode 0b0000000011100000 = .instr .cls ∧ decode 0b1101101001110011 = .instr (.drw 10 7 3) := by decide

theorem test_decode_control_words :
    decode 0b0000000011101110 = .instr .ret ∧ decode 0b0001101010111100 = .instr (.jp 0xABC) ∧
    decode 0b0010001000010000 = .instr (.call 0x210) ∧ decode 0b0011001101000010 = .instr (.seVxKk 3 0x42) ∧
    decode 0b0100001101000010 = .instr (.sneVxKk 3 0x42) ∧ decode 0b0101000100100000 = .instr (.seVxVy 1 2) ∧
    decode 0b1001000100100000 = .instr (.sneVxVy 1 2) ∧ decode 0b1011111111111111 = .instr (.jpV0 0xFFF) := by decide

theorem test_decode_alu_words :
    decode 0b0110101001011100 = .instr (.ldVxKk 10 0x5C) ∧ decode 0b0111010100000001 = .instr (.addVxKk 5 1) ∧
    decode 0b1000000100100000 = .instr (.ldVxVy 1 2) ∧ decode 0b1000000100100001 = .instr (.orVxVy 1 2) ∧
    decode 0b1000000100100010 = .instr (.andVxVy 1 2) ∧ decode 0b1000000100100011 = .instr (.xorVxVy 1 2) ∧
    decode 0b1000000100100100 = .instr (.addVxVy 1 2) ∧ decode 0b1000000100100101 = .instr (.subVxVy 1 2) ∧
    decode 0b1000000100100110 = .instr (.shrVx 1 2) ∧ decode 0b1000000100100111 = .instr (.subnVxVy 1 2) ∧
    decode 0b1000000100101110 = .instr (.shlVx 1 2) ∧ decode 0b1100001100001111 = .instr (.rnd 3 0x0F) := by decide

theorem test_decode_index_memory_words :
    decode 0b1010000100100011 = .instr (.ldI 0x123) ∧ decode 0b1111000100011110 = .instr (.addIVx 1) ∧
    decode 0b1111001000101001 = .instr (.ldFVx 2) ∧ decode 0b1111101000110011 = .instr (.ldBVx 10) ∧
    decode 0b1111001001010101 = .instr (.ldMemVx 2) ∧ decode 0b1111111101100101 = .instr (.ldVxMem 15) := by decide

theorem test_decode_keypad_timer_words :
    decode 0b1110000110011110 = .instr (.skp 1) ∧ decode 0b1110000110100001 = .instr (.sknp 1) ∧
    decode 0b1111000100000111 = .instr (.ldVxDt 1) ∧ decode 0b1111001000001010 = .instr (.ldVxK 2) ∧
    decode 0b1111000100010101 = .instr (.ldDtVx 1) ∧ decode 0b1111001100011000 = .instr (.ldStVx 3) := by decide

/-- Aliases and unknown words: V1, V3, V4, V6, V7, V8, V9, V35, V38. -/
theorem test_decode_aliases_and_unknown_words :
    decode 0x0123 = .nop .t0 ∧ decode 0x0AB0 = .instr .cls ∧ decode 0x0ABE = .instr .ret ∧ decode 0x800F = .nop .t8 ∧
    decode 0xE000 = .nop .te ∧ decode 0xF0FF = .nop .tf ∧ decode 0xF016 = .nop .tf ∧
    decode 0x5123 = .instr (.seVxVy 1 2) ∧ decode 0x9125 = .instr (.sneVxVy 1 2) := by decide

theorem test_decode_table_word : decodeTableWord 16 0x8124 = some (.addVxVy 1 2) ∧ decodeTableWord 16 0x8128 = none := by
  decide

theorem test_encode_of_decoded_words : encode (.drw 10 7 3) = 0xDA73 ∧ encode (.shrVx 1 2) = 0x8126 ∧
    encode (.seVxVy 1 2) = 0x5120 ∧ encode (.ldBVx 10) = 0xFA33 := by decide

/-! ### Reset and memory -/

theorem test_reset_memory_wf : Memory.wf State.reset.font State.reset.mem := by decide

/-- R129, R130 at the edges of the font and of memory. -/
theorem test_reset_bytes : State.reset.readByte 0x04F = 0 ∧ State.reset.readByte 0x050 = 0xF0 ∧
    State.reset.readByte 0x09F = 0x80 ∧ State.reset.readByte 0x0A0 = 0 ∧ State.reset.readByte 0xFFF = 0 := by decide

/-- FONT is configuration (R129): another table, here one of FF at every place, is what `Reset` copies. -/
theorem test_reset_with_another_font : let s := State.resetWith (Vector.replicate 80 0xFF) 0
    s.readByte 0x04F = 0 ∧ s.readByte 0x050 = 0xFF ∧ s.readByte 0x09F = 0xFF ∧ s.readByte 0x0A0 = 0 := by decide

/-- Equal memories are equal data: writing back what `Reset` left takes the cell out again. -/
theorem test_memory_is_canonical :
    ((State.reset.writeByte 0x300 7).writeByte 0x1300 0).mem = [] ∧
    ((State.reset.writeByte 0x301 1).writeByte 0x300 2).mem = [(0x300, 2), (0x301, 1)] := by decide

/-! ### One step each -/

/-- V10: the fetch crosses the top of memory, and PC is reduced at the access only. -/
theorem test_fetch_wraps : nextSat
    (step { withBytes (withBytes State.reset 0xFFF [0x12]) 0 [0x34] with pc := 0xFFF }) (fun t => t.pc == 0x234) = true := by
  decide

/-- V11: PC = 0xFFFE fetches M[0xFFE] and goes on to 0. -/
theorem test_pc_wraps : nextSat (step { withBytes State.reset 0xFFE [0x60, 0x01] with pc := 0xFFFE })
    (fun t => t.getV 0 == 1 && t.pc == 0) = true := by decide

/-- V1. -/
theorem test_nop : nextSat (step { at200 0x0123 with dt := 5 }) (fun t => t.pc == 0x202 && t.dt == 4 && t.fault == .none) = true := by
  decide

/-- V13. -/
theorem test_faulted_changes_nothing : nextSat (step { at200 0x6005 with fault := .stackOverflow, dt := 9 })
    (fun t => t == { at200 0x6005 with fault := .stackOverflow, dt := 9 }) = true := by decide

/-- V15. -/
theorem test_cls : nextSat (step (withV (withOn (at200 0x00E0) [(0, 0), (31, 63)]) [(15, 1)]))
    (fun t => cellsAre t false [(0, 0), (31, 63), (5, 5)] && t.getV 15 == 1 && t.pc == 0x202) = true := by decide

/-- V18: bottom clip. -/
theorem test_drw_clips : nextSat (step { withV (at200 0xD015) [(1, 30)] with index := 0x050 })
    (fun t => cellsAre t true [(30, 0), (30, 3), (31, 0), (31, 3)] && cellsAre t false [(30, 4), (31, 1), (0, 0)] && t.getV 15 == 0) = true := by decide

/-- V20: partial collision. -/
theorem test_drw_collides : nextSat (step { withOn (at200 0xD011) [(0, 0), (0, 5)] with index := 0x050 })
    (fun t => cellsAre t true [(0, 1), (0, 2), (0, 3), (0, 5)] && cellsAre t false [(0, 0), (0, 4)] && t.getV 15 == 1) = true := by decide

/-- V25. -/
theorem test_ret : nextSat (step { at200 0x00EE with sp := 1, stack := State.reset.stack.set 0 0x3A2 })
    (fun t => t.pc == 0x3A2 && t.sp == 0 && t.stack[0] == 0x3A2) = true := by decide

/-- V26. -/
theorem test_ret_underflow : nextSat (step { at200 0x00EE with dt := 3 })
    (fun t => t == { at200 0x00EE with dt := 3, fault := .stackUnderflow }) = true := by decide

/-- V29. -/
theorem test_jp : nextSat (step (at200 0x1ABC)) (fun t => t.pc == 0xABC) = true := by decide

/-- V27. -/
theorem test_call_last_slot : nextSat
    (step { withBytes State.reset 0x204 [0x2A, 0xBC] with pc := 0x204, sp := 15 })
    (fun t => t.stack[15] == 0x206 && t.sp == 16 && t.pc == 0xABC) = true := by decide

/-- V28. -/
theorem test_call_overflow : nextSat
    (step { withBytes State.reset 0x204 [0x2A, 0xBC] with pc := 0x204, sp := 16, dt := 3 })
    (fun t => t.fault == .stackOverflow && t.pc == 0x204 && t.sp == 16 && t.dt == 3 && t.opcode == 0) = true := by
  decide

/-- V30, V31. -/
theorem test_se_kk : nextSat (step (withV (at200 0x3342) [(3, 0x42)])) (fun t => t.pc == 0x204) = true ∧
    nextSat (step (withV (at200 0x3342) [(3, 0x41)])) (fun t => t.pc == 0x202) = true := by decide

/-- V32, V33. -/
theorem test_sne_kk : nextSat (step (withV (at200 0x4342) [(3, 0x42)])) (fun t => t.pc == 0x202) = true ∧
    nextSat (step (withV (at200 0x4342) [(3, 0x41)])) (fun t => t.pc == 0x204) = true := by decide

/-- V35. -/
theorem test_se_vy : nextSat (step (withV (at200 0x5123) [(1, 7), (2, 7)])) (fun t => t.pc == 0x204) = true := by
  decide

/-- V36, V37. -/
theorem test_sne_vy : nextSat (step (withV (at200 0x9120) [(1, 7), (2, 8)])) (fun t => t.pc == 0x204) = true ∧
    nextSat (step (withV (at200 0x9120) [(1, 7), (2, 7)])) (fun t => t.pc == 0x202) = true := by decide

/-- V40. -/
theorem test_jp_v0 : nextSat (step (withV (at200 0xBFFF) [(0, 0xFF)])) (fun t => t.pc == 0x10FE) = true := by decide

/-- V42. -/
theorem test_ld_kk : nextSat (step (at200 0x6A5C)) (fun t => t.getV 10 == 0x5C) = true := by decide

/-- V43. -/
theorem test_add_kk : nextSat (step (withV (at200 0x7501) [(5, 0xFF), (15, 7)]))
    (fun t => t.getV 5 == 0 && t.getV 15 == 7) = true := by decide

/-- V44. -/
theorem test_ld_vy : nextSat (step (withV (at200 0x8120) [(2, 0x33)])) (fun t => t.getV 1 == 0x33) = true := by decide

/-- V45. -/
theorem test_or : nextSat (step (withV (at200 0x8121) [(1, 0xF0), (2, 0x0F), (15, 1)]))
    (fun t => t.getV 1 == 0xFF && t.getV 15 == 1) = true := by decide

/-- V46. -/
theorem test_and : nextSat (step (withV (at200 0x8122) [(1, 0xF0), (2, 0x3C), (15, 1)]))
    (fun t => t.getV 1 == 0x30 && t.getV 15 == 1) = true := by decide

/-- V47. -/
theorem test_xor : nextSat (step (withV (at200 0x8123) [(1, 0xF0), (2, 0x3C), (15, 1)]))
    (fun t => t.getV 1 == 0xCC && t.getV 15 == 1) = true := by decide

/-- S1. -/
theorem test_add_carry : nextSat (step (withV (at200 0x8014) [(0, 0xFF), (1, 1)]))
    (fun t => t.getV 0 == 0 && t.getV 15 == 1) = true := by decide

/-- V62: the flag wins over the sum. -/
theorem test_add_to_vf : nextSat (step (withV (at200 0x8F14) [(15, 1), (1, 2)])) (fun t => t.getV 15 == 0) = true := by
  decide

/-- V52: equal operands are no "strictly greater". -/
theorem test_sub_equal : nextSat (step (withV (at200 0x8125) [(1, 5), (2, 5), (15, 1)]))
    (fun t => t.getV 1 == 0 && t.getV 15 == 0) = true := by decide

/-- V53. -/
theorem test_sub_borrow : nextSat (step (withV (at200 0x8125) [(1, 3), (2, 5)]))
    (fun t => t.getV 1 == 0xFE && t.getV 15 == 0) = true := by decide

/-- V54. -/
theorem test_shr : nextSat (step (withV (at200 0x8126) [(1, 0xFF)])) (fun t => t.getV 1 == 0x7F && t.getV 15 == 1) = true := by
  decide

/-- V56. -/
theorem test_subn : nextSat (step (withV (at200 0x8127) [(1, 3), (2, 5)])) (fun t => t.getV 1 == 2 && t.getV 15 == 1) = true := by
  decide

/-- V58. -/
theorem test_subn_borrow : nextSat (step (withV (at200 0x8127) [(1, 5), (2, 3)]))
    (fun t => t.getV 1 == 0xFE && t.getV 15 == 0) = true := by decide

/-- V59. -/
theorem test_shl : nextSat (step (withV (at200 0x812E) [(1, 0x81)])) (fun t => t.getV 1 == 2 && t.getV 15 == 1) = true := by
  decide

/-- V68: a mask of zero, whatever the draw. -/
theorem test_rnd_masked : ∃ t, exec (.rnd 3 0) (withV State.reset [(3, 9)]) = .next t ∧ t.getV 3 = 0 :=
  ⟨_, rfl, by simp [State.getV, State.setV]⟩

/-- V70. -/
theorem test_ld_i : nextSat (step (at200 0xA123)) (fun t => t.index == 0x123) = true := by decide

/-- V71, V72. -/
theorem test_add_i : nextSat (step { withV (at200 0xF11E) [(1, 1)] with index := 0x0FFF }) (fun t => t.index == 0x1000) = true ∧
    nextSat (step { withV (at200 0xF11E) [(1, 2)] with index := 0xFFFF }) (fun t => t.index == 1 && t.getV 15 == 0) = true := by
  decide

/-- V73. -/
theorem test_ld_f : nextSat (step (withV (at200 0xF129) [(1, 0x1A)])) (fun t => t.index == 0x082) = true := by decide

/-- V77. -/
theorem test_bcd_wraps : nextSat (step { withV (at200 0xF133) [(1, 207)] with index := 0xFFF })
    (fun t => t.readByte 0xFFF == 2 && t.readByte 0 == 0 && t.readByte 1 == 7) = true := by decide

/-- V79. -/
theorem test_store_registers : nextSat
    (step { withV (at200 0xF255) [(0, 1), (1, 2), (2, 3), (3, 4)] with index := 0x300 })
    (fun t => t.readByte 0x300 == 1 && t.readByte 0x302 == 3 && t.readByte 0x303 == 0 && t.index == 0x300) = true := by
  decide

/-- V80. -/
theorem test_load_registers : nextSat (step { withBytes (at200 0xF165) 0x300 [0x11, 0x22, 0x33] with index := 0x300 })
    (fun t => t.getV 0 == 0x11 && t.getV 1 == 0x22 && t.getV 2 == 0 && t.index == 0x300) = true := by decide

/-- V83. -/
theorem test_skp : nextSat (step ((withV (at200 0xE19E) [(1, 0x17)]).setKey 7 true)) (fun t => t.pc == 0x204) = true := by
  decide

/-- V85, V86. -/
theorem test_sknp : nextSat (step (withV (at200 0xE1A1) [(1, 7)])) (fun t => t.pc == 0x204) = true ∧
    nextSat (step ((withV (at200 0xE1A1) [(1, 7)]).setKey 7 true)) (fun t => t.pc == 0x202) = true := by decide

/-- V87. -/
theorem test_ld_vx_dt : nextSat (step { at200 0xF107 with dt := 3 }) (fun t => t.getV 1 == 3 && t.dt == 2) = true := by
  decide

/-- V89. -/
theorem test_key_wait : nextSat (step { withV (at200 0xF20A) [(2, 9)] with dt := 2, st := 2 })
    (fun t => t.pc == 0x200 && t.getV 2 == 9 && t.dt == 1 && t.st == 1) = true := by decide

/-- V90. -/
theorem test_key_lowest : nextSat (step (((at200 0xF20A).setKey 9 true).setKey 3 true))
    (fun t => t.getV 2 == 3 && t.pc == 0x202) = true := by decide

/-- V91, V92. -/
theorem test_ld_dt : nextSat (step (withV (at200 0xF115) [(1, 5)])) (fun t => t.dt == 4) = true ∧
    nextSat (step (withV (at200 0xF115) [(1, 1)])) (fun t => t.dt == 0) = true := by decide

/-- V93, V94. -/
theorem test_ld_st : nextSat (step (withV (at200 0xF118) [(1, 4)])) (fun t => t.st == 3) = true ∧
    nextSat (step { at200 0xF118 with st := 7 }) (fun t => t.st == 0) = true := by decide

/-- The host's word at the fetch address, in a state that was Faulted (log entry 9). -/
theorem test_with_fetch_word : nextSat (step (State.withFetchWord { State.reset with fault := .stackOverflow } 16 0x6A5C))
    (fun t => t.getV 10 == 0x5C && t.pc == 0x202) = true := by decide

/-- R23, R24: the flat index of cell (r, c) is r × 64 + c, and the renderer's constants stand for on and off. -/
theorem test_read_fb : let s := withOn State.reset [(1, 2)]
    s.readFB[66] = true ∧ s.readFB[65] = false ∧ s.readFB[129] = false ∧
    (s.renderFB ⟨7, 3, by decide⟩)[66] = 7 ∧ (s.renderFB ⟨7, 3, by decide⟩)[65] = 3 := by
  have h : ∀ (s : State) (k : Nat) (h : k < 2048), s.readFB[k] = s.cell ⟨k / 64, by omega⟩ ⟨k % 64, by omega⟩ :=
    fun s k h => by simp [State.readFB]
  simp only [State.renderFB, Vector.getElem_map, h]
  decide

/-! ### Witnesses: inputs that meet the hypotheses of the statements -/

theorem inv_of_running {s : State} (hm : Memory.wf s.font s.mem) (hs : s.sp.toNat ≤ 16) (hf : s.fault = .none) : s.Inv :=
  ⟨hm, hs, fun h => by simp [hf] at h, fun h => by simp [hf] at h⟩

theorem ne_of_nop {op : Word} {why : Unknown} (h : decode op = .nop why) (f : Reg → Instr) :
    ∀ y, decode op ≠ .instr (f y) := by
  simp [h]

/-- ResetLeavesTheStatedValues: the addresses beside the font's bounds, and the ends of memory. -/
theorem witness_ResetLeavesTheStatedValues :
    (0 < 4096 ∧ 0 < 0x050) ∧ (0x04F < 4096 ∧ 0x04F < 0x050) ∧ (0x0A0 < 4096 ∧ 0x0A0 ≤ 0x0A0) ∧
    (0xFFF < 4096 ∧ 0x0A0 ≤ 0xFFF) := by decide

/-- TheFontIsConfiguration: a Reset and a Cycle of a machine with another font. -/
theorem witness_TheFontIsConfiguration :
    (∃ t, hostApply (.reset 3) (State.resetWith (Vector.replicate 80 0xFF) 0) = .next t ∧
      (t.font == Vector.replicate 80 0xFF) = true) ∧
    ∃ t, hostApply .cycle (State.resetWith (Vector.replicate 80 0xFF) 0) = .next t ∧
      (t.font == Vector.replicate 80 0xFF) = true :=
  ⟨exists_next_of_nextSat (by decide), exists_next_of_nextSat (by decide)⟩

/-- RenderedCellsAreTwoValued: there are distinct constants. -/
theorem witness_RenderedCellsAreTwoValued : ∃ cells : Config.CellConstants Bool, cells.on ≠ cells.off :=
  ⟨⟨true, false, by decide⟩, by decide⟩

/-- EveryStepKeepsTheInvariant: a completed cycle, and one that raises the overflow. -/
theorem witness_EveryStepKeepsTheInvariant :
    ((at200 0x8014).Inv ∧ ∃ t, step (at200 0x8014) = .next t ∧ (t.pc == 0x202) = true) ∧
    (State.Inv { at200 0x2ABC with sp := 16 } ∧
      ∃ t, step { at200 0x2ABC with sp := 16 } = .next t ∧ (t.fault == .stackOverflow) = true) :=
  ⟨⟨inv_of_running (by decide) (by decide) (by decide), exists_next_of_nextSat (by decide)⟩,
   ⟨inv_of_running (by decide) (by decide) (by decide), exists_next_of_nextSat (by decide)⟩⟩

/-- EveryHostOperationKeepsTheInvariant: a ROM that wraps no address and one key. -/
theorem witness_EveryHostOperationKeepsTheInvariant : State.reset.Inv ∧
    (∃ t, hostApply (.loadRom [0x12, 0x00]) State.reset = .next t) ∧
    (∃ t, hostApply (.writeKey 7 true) State.reset = .next t) ∧ ∃ t, hostApply (.reset 3) State.reset = .next t :=
  ⟨inv_of_running (by decide) (by decide) rfl, ⟨_, rfl⟩, ⟨_, rfl⟩, ⟨_, rfl⟩⟩

/-- EveryCycleCompletesFromALegalState: the ends of SP's range. -/
theorem witness_EveryCycleCompletesFromALegalState :
    State.reset.Inv ∧ State.Inv { State.reset with sp := 16 } ∧
    State.Inv { State.reset with sp := 16, fault := .stackOverflow } :=
  ⟨inv_of_running (by decide) (by decide) rfl, inv_of_running (by decide) (by decide) rfl,
   ⟨by decide, by decide, fun _ => rfl, fun h => by cases h⟩⟩

/-- StepsStopOnlyOnAnIllegalStackPointer. -/
theorem witness_StepsStopOnlyOnAnIllegalStackPointer : ∃ f, step { at200 0x00EE with sp := 18 } = .fault f :=
  exists_fault_of_faults (by decide)

/-- CallAndRetStopAboveTheStack, at the ends of the range. SP = 17 names S[16] after the decrement of RET. -/
theorem witness_CallAndRetStopAboveTheStack :
    16 < (17 : Byte).toNat ∧ faults (exec (.call 0x300) { State.reset with sp := 17 }) = true ∧
    faults (exec .ret { State.reset with sp := 17 }) = true ∧ faults (exec .ret { State.reset with sp := 255 }) = true := by
  decide

/-- The word predicates: the first and the last word of every value of op[15:12]. -/
theorem witness_PrimaryTableDecodes : ∀ o : Fin 16,
    (BitVec.ofNat 16 (o.val * 4096)).toNat / 4096 = o.val ∧ (BitVec.ofNat 16 (o.val * 4096 + 4095)).toNat / 4096 = o.val := by
  decide

/-- The word predicates with a selector: a word for every low nibble of T0 and T8, every low byte of TE and TF. -/
theorem witness_SubTablesDecode :
    (∀ n : Fin 16, (BitVec.ofNat 16 n.val).toNat / 4096 = 0 ∧ (BitVec.ofNat 16 n.val).toNat % 16 = n.val ∧
      (BitVec.ofNat 16 (0x8120 + n.val)).toNat / 4096 = 8 ∧ (BitVec.ofNat 16 (0x8120 + n.val)).toNat % 16 = n.val) ∧
    ∀ n : Fin 256, (BitVec.ofNat 16 (0xE100 + n.val)).toNat / 4096 = 14 ∧ (BitVec.ofNat 16 (0xE100 + n.val)).toNat % 256 = n.val ∧
      (BitVec.ofNat 16 (0xF100 + n.val)).toNat / 4096 = 15 ∧ (BitVec.ofNat 16 (0xF100 + n.val)).toNat % 256 = n.val := by
  decide +kernel

/-- AliasWordsRunAsTheCanonicalWord. -/
theorem witness_AliasWordsRunAsTheCanonicalWord :
    ((0x0FF0 : Word).toNat / 4096 = 0 ∧ (0x0FF0 : Word).toNat % 16 = 0) ∧
    ((0x0ABE : Word).toNat / 4096 = 0 ∧ (0x0ABE : Word).toNat % 16 = 14) ∧
    (0x5123 : Word).toNat / 4096 = 5 ∧ (0x9FFF : Word).toNat / 4096 = 9 := by decide

/-- StepRunsTheDecodedInstruction: a Faulted state, an unknown word, an instruction. -/
theorem witness_StepRunsTheDecodedInstruction :
    ({ State.reset with fault := .stackOverflow } : State).fault ≠ .none ∧
    ((at200 0x8008).fault = .none ∧ decode (BitVec.ofNat 16 (((at200 0x8008).readByte 0x200).toNat * 256 +
      ((at200 0x8008).readByte 0x201).toNat)) = .nop .t8) ∧
    (at200 0x8014).fault = .none ∧ decode (BitVec.ofNat 16 (((at200 0x8014).readByte 0x200).toNat * 256 +
      ((at200 0x8014).readByte 0x201).toNat)) = .instr (.addVxVy 0 1) := by decide

/-- UnknownWordIsANoOp: each of the four sub-tables. -/
theorem witness_UnknownWordIsANoOp :
    ((at200 0x0123).fault = .none ∧ decode (at200 0x0123).fetchWord = .nop .t0) ∧
    ((at200 0x800F).fault = .none ∧ decode (at200 0x800F).fetchWord = .nop .t8) ∧
    ((at200 0xE000).fault = .none ∧ decode (at200 0xE000).fetchWord = .nop .te) ∧
    ((at200 0xF0FF).fault = .none ∧ decode (at200 0xF0FF).fetchWord = .nop .tf) := by decide

/-- TimersTickOncePerCompletedCycle: Fx15, Fx18, and an instruction that is neither. -/
theorem witness_TimersTickOncePerCompletedCycle :
    (decode (at200 0xF115).fetchWord = .instr (.ldDtVx 1) ∧
      ∃ t, step (at200 0xF115) = .next t ∧ (t.fault == .none) = true) ∧
    (decode (at200 0xF118).fetchWord = .instr (.ldStVx 1) ∧
      ∃ t, step (at200 0xF118) = .next t ∧ (t.fault == .none) = true) ∧
    ((∀ x, decode (at200 0x0123).fetchWord ≠ .instr (.ldDtVx x)) ∧
      (∀ x, decode (at200 0x0123).fetchWord ≠ .instr (.ldStVx x)) ∧
      ∃ t, step (at200 0x0123) = .next t ∧ (t.fault == .none) = true) :=
  ⟨⟨by decide, exists_next_of_nextSat (by decide)⟩,
   ⟨by decide, exists_next_of_nextSat (by decide)⟩,
   ⟨ne_of_nop (why := .t0) (by decide) _, ne_of_nop (why := .t0) (by decide) _,
    exists_next_of_nextSat (by decide)⟩⟩

/-- The same: a cycle that raises StackFault, and a cycle while Faulted. -/
theorem witness_TimersTickOncePerCompletedCycle_fault :
    (∃ t, step { at200 0x00EE with dt := 3 } = .next t ∧ (t.fault != .none) = true) ∧
    ∃ t, step { at200 0x6005 with dt := 9, fault := .stackOverflow } = .next t ∧ (t.fault != .none) = true :=
  ⟨exists_next_of_nextSat (by decide), exists_next_of_nextSat (by decide)⟩

/-- TimerMovesCopyTheValueBeforeTheTick: V87, V91 and V93 as states. -/
theorem witness_TimerMovesCopyTheValueBeforeTheTick :
    (({ at200 0xF107 with dt := 3 } : State).fault = .none ∧
      decode ({ at200 0xF107 with dt := 3 } : State).fetchWord = .instr (.ldVxDt 1)) ∧
    ((withV (at200 0xF115) [(1, 5)]).fault = .none ∧
      decode (withV (at200 0xF115) [(1, 5)]).fetchWord = .instr (.ldDtVx 1)) ∧
    (withV (at200 0xF118) [(1, 4)]).fault = .none ∧
      decode (withV (at200 0xF118) [(1, 4)]).fetchWord = .instr (.ldStVx 1) := by decide

/-- V95 and V96 cut to their first two cycles. -/
def timerRun (word : Word) : Nat → State :=
  runFrom (withBytes (withV (at200 word) [(3, 3)]) 0x202 [0x00, 0x01])

theorem cycles_of_two {run : Nat → State} (h0 : step (run 0) = .next (run 1)) (h1 : step (run 1) = .next (run 2))
    (hf : (run 0).fault = .none ∧ (run 1).fault = .none ∧ (run 2).fault = .none) : Cycles run 1 := by
  intro j hj
  obtain rfl | rfl : j = 0 ∨ j = 1 := by omega
  · exact ⟨h0, hf.1, hf.2.1⟩
  · exact ⟨h1, hf.2.1, hf.2.2⟩

/-- SetTimerCountsDownToZero, DT: two cycles, the second writing no timer, so that the range 1 ≤ j ≤ m is not empty. -/
theorem witness_SetTimerCountsDownToZero_dt : Cycles (timerRun 0xF315) 1 ∧
    decode (timerRun 0xF315 0).fetchWord = .instr (.ldDtVx 3) ∧
    ∀ y, decode (timerRun 0xF315 1).fetchWord ≠ .instr (.ldDtVx y) :=
  ⟨cycles_of_two (step_runFrom (by decide)) (step_runFrom (by decide)) (by decide),
   by decide, ne_of_nop (why := .t0) (by decide) _⟩

/-- SetTimerCountsDownToZero, ST. -/
theorem witness_SetTimerCountsDownToZero_st : Cycles (timerRun 0xF318) 1 ∧
    decode (timerRun 0xF318 0).fetchWord = .instr (.ldStVx 3) ∧
    ∀ y, decode (timerRun 0xF318 1).fetchWord ≠ .instr (.ldStVx y) :=
  ⟨cycles_of_two (step_runFrom (by decide)) (step_runFrom (by decide)) (by decide),
   by decide, ne_of_nop (why := .t0) (by decide) _⟩

/-- StackFaultCommitsNothing: both cases of the fault. -/
theorem witness_StackFaultCommitsNothing :
    (decode ({ at200 0x2ABC with sp := 16 } : State).fetchWord = .instr (.call 0xABC) ∧
      ∃ t, step { at200 0x2ABC with sp := 16 } = .next t ∧ (t.fault != .none) = true) ∧
    (decode (at200 0x00EE).fetchWord = .instr .ret ∧ (at200 0x00EE).sp = 0 ∧
      ∃ t, step (at200 0x00EE) = .next t ∧ (t.fault != .none) = true) :=
  ⟨⟨by decide, exists_next_of_nextSat (by decide)⟩,
   ⟨by decide, by decide, exists_next_of_nextSat (by decide)⟩⟩

/-- FaultedBlockWaitsForReset. -/
theorem witness_FaultedBlockWaitsForReset :
    ({ State.reset with fault := .stackUnderflow } : State).fault ≠ .none ∧
    (HostOp.loadRom [1] ≠ .cycle ∧ ∀ seed, HostOp.loadRom [1] ≠ .reset seed) ∧
    (∃ t, hostApply (.loadRom [1]) { State.reset with fault := .stackUnderflow } = .next t) ∧
    ∃ t, hostApply .cycle { State.reset with fault := .stackUnderflow } = .next t :=
  ⟨by decide, ⟨by decide, fun _ => by simp⟩, ⟨_, rfl⟩, ⟨_, rfl⟩⟩

/-- RetPopsThePc: SP = 0, and the ends of 1..16. -/
theorem witness_RetPopsThePc : (0 : Byte) = 0 ∧ ((1 : Byte) ≠ 0 ∧ (1 : Byte).toNat - 1 < 16) ∧
    ((16 : Byte) ≠ 0 ∧ (16 : Byte).toNat - 1 < 16) ∧
    nextSat (exec .ret { State.reset with sp := 16, stack := State.reset.stack.set 15 0x345 })
      (fun t => t.pc == 0x345 && t.sp == 15) = true := by decide

/-- CallPushesThePc: SP = 16, and the ends of 0..15. -/
theorem witness_CallPushesThePc : ({ State.reset with sp := 16 } : State).sp = 16 ∧ (0 : Byte).toNat < 16 ∧
    (15 : Byte).toNat < 16 ∧ ¬ (16 : Byte).toNat < 16 := by decide

/-- CallThenRetReturns: the state the CALL leaves is itself a u. -/
theorem witness_CallThenRetReturns : ({ State.reset with sp := 15 } : State).sp.toNat < 16 ∧
    nextSat (exec (.call 0x300) { State.reset with sp := 15 }) (fun t => nextSat (exec .ret t) fun w => w.pc == 0x200) = true := by
  decide

/-- NonBranchingInstructionsAdvanceByTwo. -/
theorem witness_NonBranchingInstructionsAdvanceByTwo : (at200 0x8014).fault = .none ∧
    decode (at200 0x8014).fetchWord = .instr (.addVxVy 0 1) ∧ ¬ MayBranch (.addVxVy 0 1) ∧
    ∃ t, step (at200 0x8014) = .next t ∧ true = true :=
  ⟨by decide, by decide, fun h => h, exists_next_of_nextSat (p := fun _ => true) (by decide)⟩

/-- FlagIsWrittenLast: each flag both ways at the boundary of its condition. -/
theorem witness_FlagIsWrittenLast :
    (¬ (0xFF + 0x00 > 255) ∧ 0xFF + 0x01 > 255) ∧ (¬ (5 > 5) ∧ 6 > 5) ∧ (2 % 2 ≠ 1 ∧ 3 % 2 = 1) ∧
    (¬ (127 ≥ 128) ∧ 128 ≥ 128) ∧ ((0 : Reg) ≠ 15 ∧ (1 : Reg) ≠ 0 ∧ (1 : Reg) ≠ 15) := by decide

/-- RegistersChangeOnlyAsNamed: VE is not written by ADD V0,V1, and VF is. -/
theorem witness_RegistersChangeOnlyAsNamed : decode (at200 0x8014).fetchWord = .instr (.addVxVy 0 1) ∧
    (∃ t, step (at200 0x8014) = .next t ∧ true = true) ∧ ¬ Writes 14 (.addVxVy 0 1) ∧ Writes 15 (.addVxVy 0 1) :=
  ⟨by decide, exists_next_of_nextSat (p := fun _ => true) (by decide), by simp [Writes], by simp [Writes]⟩

/-- BcdStoresThreeDigits: the address beside the three stored bytes, when they wrap. -/
theorem witness_BcdStoresThreeDigits :
    2 < 4096 ∧ 2 ≠ 0xFFF % 4096 ∧ 2 ≠ (0xFFF + 1) % 4096 ∧ 2 ≠ (0xFFF + 2) % 4096 := by decide

/-- RegisterStoreWritesV0ToVx: the first and the last register, and the addresses beside the stored bytes. -/
theorem witness_RegisterStoreWritesV0ToVx : ((0 : Reg) ≤ 2 ∧ (2 : Reg) ≤ 2) ∧
    (∀ i : Reg, i ≤ 2 → 0x303 ≠ (0x300 + i.val) % 4096) ∧ ∀ i : Reg, i ≤ 2 → 0x2FF ≠ (0x300 + i.val) % 4096 := by decide

/-- RegisterLoadReadsV0ToVx. -/
theorem witness_RegisterLoadReadsV0ToVx : (0 : Reg) ≤ 1 ∧ (1 : Reg) ≤ 1 ∧ (1 : Reg) < 2 := by decide

/-- StoreThenLoadRestoresTheRegisters: the state after the store, with V0 to V2 cleared, is a w. -/
theorem witness_StoreThenLoadRestoresTheRegisters :
    let s : State := { withV State.reset [(0, 1), (1, 2), (2, 3), (3, 4)] with index := 0xFFF }
    ∃ t, exec (.ldMemVx 2) s = .next t ∧
      let w := withV t [(0, 0), (1, 0), (2, 0)]
      w.index = s.index ∧ (∀ a, w.readByte a = t.readByte a) ∧ ∀ r, 2 < r → w.getV r = s.getV r :=
  ⟨_, rfl, by decide, fun _ => rfl, by decide⟩

/-- StoredCodeIsFetchedInTheNextCycle: program P6 at its fourth cycle. -/
theorem witness_StoredCodeIsFetchedInTheNextCycle :
    let s : State := { withV (at200 0xF155) [(0, 0x12), (1, 0x0A)] with index := 0x202 }
    s.fault = .none ∧ decode s.fetchWord = .instr (.ldMemVx 1) ∧ 1 ≤ (1 : Reg).val ∧ s.index = s.pc + 2 ∧
      nextSat (step s) (fun t => t.fetchWord == 0x120A) = true := by decide

/-- EachStateIsWrittenOnlyByItsInstructions: ADD V0,V1 is none of the named instructions. -/
theorem witness_EachStateIsWrittenOnlyByItsInstructions : decode (at200 0x8014).fetchWord = .instr (.addVxVy 0 1) ∧
    (∃ t, step (at200 0x8014) = .next t ∧ true = true) ∧
    (∀ x nnn y n, Instr.addVxVy 0 1 ≠ .ldBVx x ∧ Instr.addVxVy 0 1 ≠ .ldMemVx x ∧ Instr.addVxVy 0 1 ≠ .ldI nnn ∧
      Instr.addVxVy 0 1 ≠ .addIVx x ∧ Instr.addVxVy 0 1 ≠ .ldFVx x ∧ Instr.addVxVy 0 1 ≠ .call nnn ∧
      Instr.addVxVy 0 1 ≠ .ret ∧ Instr.addVxVy 0 1 ≠ .cls ∧ Instr.addVxVy 0 1 ≠ .drw x y n) :=
  ⟨by decide, exists_next_of_nextSat (p := fun _ => true) (by decide), by simp⟩

/-- The glyph 0 of the font at the top left covers (0, 0) and not (0, 4). -/
theorem glyph_covers : State.SpriteCovers { State.reset with index := 0x050 } 0 1 5 0 0 ∧
    ¬ State.SpriteCovers { State.reset with index := 0x050 } 0 1 5 0 4 := by
  refine ⟨⟨0, 0, by decide, by decide, by decide, by decide, by decide⟩, ?_⟩
  rintro ⟨r, c, -, -, hbit, hr, hc⟩
  obtain rfl : r = 0 := by
    have : (State.getV { State.reset with index := 0x050 } 1).toNat % 32 = 0 := by decide
    simp only [this] at hr; simpa using hr.symm
  obtain rfl : c = 4 := by
    have : (State.getV { State.reset with index := 0x050 } 0).toNat % 64 = 0 := by decide
    simp only [this] at hc; simpa using hc.symm
  exact absurd hbit (by decide)

/-- DrwXorsTheSpriteAndFlagsCollisions: a covered cell, a cell that is not, no collision on a blank screen. -/
theorem witness_DrwXorsTheSpriteAndFlagsCollisions :
    State.SpriteCovers { State.reset with index := 0x050 } 0 1 5 0 0 ∧
    ¬ State.SpriteCovers { State.reset with index := 0x050 } 0 1 5 0 4 ∧
    ¬ ∃ r c, State.SpriteCovers { State.reset with index := 0x050 } 0 1 5 r c ∧
      State.cell { State.reset with index := 0x050 } r c = true :=
  ⟨glyph_covers.1, glyph_covers.2, by
    rintro ⟨r, c, -, h⟩
    simp [State.cell, State.reset, State.resetWith, blankScreen] at h⟩

/-- The same with a collision: the covered cell (0, 0) is on. -/
theorem witness_DrwXorsTheSpriteAndFlagsCollisions_collision :
    ∃ r c, State.SpriteCovers { withOn State.reset [(0, 0)] with index := 0x050 } 0 1 5 r c ∧
      State.cell { withOn State.reset [(0, 0)] with index := 0x050 } r c = true :=
  ⟨0, 0, ⟨0, 0, by decide, by decide, by decide, by decide, by decide⟩, by decide⟩

/-- DrawingTwiceRestoresTheScreen. -/
theorem witness_DrawingTwiceRestoresTheScreen : (0 : Reg) ≠ 15 ∧ (14 : Reg) ≠ 15 := by decide

/-- KeyWaitTakesTheLowestKeyOrStays: keys 3 and 9 pressed, key 0 pressed, and none pressed. -/
theorem witness_KeyWaitTakesTheLowestKeyOrStays :
    (let s := (State.reset.setKey 9 true).setKey 3 true
     s.key 3 = true ∧ ∀ j, j < 3 → s.key j = false) ∧
    ((State.reset.setKey 0 true).key 0 = true ∧ ∀ j, j < 0 → (State.reset.setKey 0 true).key j = false) ∧
    (∀ k : Key, State.reset.key k = false) := by decide

/-- KeyWaitTakesTheLowestKeyOrStays: its third clause. -/
theorem witness_KeyWaitTakesTheLowestKeyOrStays_step : (at200 0xF20A).fault = .none ∧
    decode (at200 0xF20A).fetchWord = .instr (.ldVxK 2) ∧ ∀ k, (at200 0xF20A).key k = false := by decide

/-- LoadRomWritesTheProgramArea: the first and last byte of a ROM of two bytes and the addresses beside it, and of one
that is a byte too long (the last byte loaded is at 0xFFF). -/
theorem witness_LoadRomWritesTheProgramArea :
    (∀ j, j < 2 → j < ([0x12, 0x00] : List Byte).length ∧ j < 3584) ∧ (0x1FF < 4096 ∧ 0x1FF < 0x200) ∧
    (0x202 < 4096 ∧ 0x200 + min ([0x12, 0x00] : List Byte).length 3584 ≤ 0x202) ∧
    (3583 < (List.replicate 3585 (0 : Byte)).length ∧ 3583 < 3584 ∧ 0x200 + 3583 = 0xFFF) := by decide +kernel

/-- WriteKeySetsOneKey. -/
theorem witness_WriteKeySetsOneKey : (8 : Key) ≠ 7 := by decide

/-- A use of the block that is a success, and P5's end, which is none (R117). -/
theorem test_success_and_fault :
    SafeRun [.reset 1, .loadRom [0x60, 0x05], .cycle, .readFB] State.reset ∧
    ¬ Succeeds (.next { State.reset with fault := .stackOverflow }) := by
  constructor
  · have h : nextSat (hostRun [.reset 1, .loadRom [0x60, 0x05], .cycle, .readFB] State.reset)
        (fun t => t.fault == .none) = true := by decide
    obtain ⟨t, ht, hf⟩ := exists_next_of_nextSat h
    simp only [SafeRun, ht, Succeeds]
    simpa using hf
  · simp [Succeeds]

end Sys2Proof.Tests
end

namespace Sys2Proof.Machine

/-! ### The configured font: EXECUTE and a whole cycle keep it (log entry 12) -/

/-- Every handler, NOP included, keeps the font. -/
theorem execHandler_font {w : Handler} {s t : State} (h : execHandler w s = .next t) : t.font = s.font := by
  cases w with
  | instr i =>
    obtain ⟨-, -, hfont, -⟩ := exec_frame h
    exact hfont
  | nop _ => cases h; rfl

/-- Each of the three ways a cycle ends keeps the font: Faulted, completed, and raising StackFault. -/
theorem step_font {s t : State} (h : step s = .next t) : t.font = s.font := by
  obtain ⟨-, rfl⟩ | ⟨u, -, hexec, ⟨-, rfl⟩ | ⟨-, rfl⟩⟩ := step_cases h
  · rfl
  · calc u.tick.font
      _ = u.font := u.tick_font
      _ = s.fetch.advance.font := execHandler_font hexec
      _ = s.font := s.started_font
  · rfl

/-- Settles O3, by cases on the operation: Reset copies the font, LoadRom writes M only, and `step_font` is Cycle. -/
theorem theFontIsConfiguration : Obligations.TheFontIsConfiguration := by
  intro op s t h
  cases op with
  | cycle => exact step_font h
  | loadRom bytes => cases h; exact s.writeBytes_font _ _
  | reset | writeKey | readFB | readST | readFault => cases h; rfl

end Sys2Proof.Machine

namespace Sys2Proof.Machine

/-! ### EXECUTE inverted where it branches: CALL, RET and Fx0A -/

/-- The two next states of CALL: StackOverflow recorded, or a push (R80, R116). -/
theorem exec_call_next {nnn : Addr} {s t : State} (h : exec (.call nnn) s = .next t) :
    (s.sp = 16 ∧ t = s.setFault .stackOverflow) ∨
    ∃ hlt : s.sp.toNat < 16, t = ((s.setStack ⟨s.sp.toNat, hlt⟩ s.pc).setSp (s.sp + 1)).setPc (zextAddr nnn) := by
  obtain ⟨hsp, e⟩ | ⟨hlt, e⟩ | ⟨-, e⟩ := execCall_cases nnn s <;> rw [exec_call, e] at h <;> cases h
  · exact .inl ⟨hsp, rfl⟩
  · exact .inr ⟨hlt, rfl⟩

/-- The two next states of RET: StackUnderflow recorded, or a pop (R78, R116). -/
theorem exec_ret_next {s t : State} (h : exec .ret s = .next t) :
    (s.sp = 0 ∧ t = s.setFault .stackUnderflow) ∨
    ∃ hlt : s.sp.toNat - 1 < 16, s.sp ≠ 0 ∧ t = (s.setSp (s.sp - 1)).setPc s.stack[s.sp.toNat - 1] := by
  obtain ⟨hsp, e⟩ | ⟨hlt, hne, e⟩ | ⟨-, e⟩ := execRet_cases s <;> rw [exec_ret, e] at h <;> cases h
  · exact .inl ⟨hsp, rfl⟩
  · exact .inr ⟨hlt, hne, rfl⟩

/-- The two next states of Fx0A: a key number in V[x], or PC back at the instruction (R110). -/
theorem exec_ldVxK_next {x : Reg} {s t : State} (h : exec (.ldVxK x) s = .next t) :
    (∃ k, t = s.setV x (keyByte k)) ∨ t = s.setPc (s.pc - 2) := by
  rw [exec_ldVxK, execLdVxK] at h
  split at h <;> cases h
  · exact .inl ⟨_, rfl⟩
  · exact .inr rfl

/-! ### The frame of EXECUTE, piece by piece -/

/-- EXECUTE writes I, M, S and FB only in the instructions the spec names (R18, R19, R23, R40). -/
theorem exec_data_frame {i : Instr} {s t : State} (h : exec i s = .next t) :
    ((∀ x nnn, i ≠ .ldI nnn ∧ i ≠ .addIVx x ∧ i ≠ .ldFVx x) → t.index = s.index) ∧
    ((∀ x, i ≠ .ldBVx x ∧ i ≠ .ldMemVx x) → t.mem = s.mem) ∧
    ((∀ nnn, i ≠ .call nnn) → t.stack = s.stack) ∧
    ((∀ x y n, i ≠ .cls ∧ i ≠ .drw x y n) → t.fb = s.fb) := by
  cases i
  case call nnn =>
    obtain ⟨-, rfl⟩ | ⟨_, rfl⟩ := exec_call_next h <;>
      exact ⟨fun _ => rfl, fun _ => rfl, fun hi => absurd rfl (hi nnn), fun _ => rfl⟩
  case ret =>
    obtain ⟨-, rfl⟩ | ⟨_, -, rfl⟩ := exec_ret_next h <;>
      exact ⟨fun _ => rfl, fun _ => rfl, fun _ => rfl, fun _ => rfl⟩
  case ldVxK x =>
    obtain ⟨_, rfl⟩ | rfl := exec_ldVxK_next h <;>
      exact ⟨fun _ => rfl, fun _ => rfl, fun _ => rfl, fun _ => rfl⟩
  case ldI | addIVx | ldFVx =>
    cases h
    exact ⟨fun hi => by simp at hi, fun _ => rfl, fun _ => rfl, fun _ => rfl⟩
  case ldBVx | ldMemVx =>
    cases h
    exact ⟨fun _ => s.writeBytes_index _ _, fun hi => by simp at hi, fun _ => s.writeBytes_stack _ _,
      fun _ => s.writeBytes_fb _ _⟩
  case cls | drw =>
    cases h
    exact ⟨fun _ => rfl, fun _ => rfl, fun _ => rfl, fun hi => by simp at hi⟩
  case ldVxMem =>
    cases h
    exact ⟨fun _ => s.loadRegs_index _, fun _ => s.loadRegs_mem _, fun _ => s.loadRegs_stack _,
      fun _ => s.loadRegs_fb _⟩
  case seVxKk | sneVxKk | seVxVy | sneVxVy | skp | sknp =>
    cases h
    exact ⟨fun _ => s.skipIf_index _, fun _ => s.skipIf_mem _, fun _ => s.skipIf_stack _, fun _ => s.skipIf_fb _⟩
  all_goals
    cases h
    exact ⟨fun _ => rfl, fun _ => rfl, fun _ => rfl, fun _ => rfl⟩

/-- EXECUTE leaves every register outside the instruction's destinations as it was (R14, R15, R66). -/
theorem exec_getV_of_not_writes {i : Instr} {s t : State} (h : exec i s = .next t) {r : Reg} (hr : ¬ Writes r i) :
    t.getV r = s.getV r := by
  cases i
  case call nnn => obtain ⟨-, rfl⟩ | ⟨_, rfl⟩ := exec_call_next h <;> rfl
  case ret => obtain ⟨-, rfl⟩ | ⟨_, -, rfl⟩ := exec_ret_next h <;> rfl
  case ldVxK x =>
    obtain ⟨k, rfl⟩ | rfl := exec_ldVxK_next h
    · exact s.getV_setV_ne _ hr
    · rfl
  case ldVxKk | addVxKk | ldVxVy | orVxVy | andVxVy | xorVxVy | ldVxDt =>
    cases h
    exact s.getV_setV_ne _ hr
  case rnd =>
    cases h
    exact s.advanceRng.getV_setV_ne _ hr
  case drw =>
    cases h
    exact (s.setFb _).getV_setV_ne _ hr
  case addVxVy | subVxVy | shrVx | subnVxVy | shlVx =>
    cases h
    obtain ⟨hx, hF⟩ := not_or.1 hr
    rw [State.getV_setResultThenFlag, if_neg hF, if_neg hx]
  case ldVxMem x =>
    cases h
    have hlt : ¬ r.val < x.val + 1 := fun hlt => hr (Nat.le_of_lt_succ hlt)
    rw [State.getV_loadRegs _ _ x.isLt, if_neg hlt]
  case ldBVx | ldMemVx =>
    cases h
    exact s.getV_writeBytes _ _ r
  case seVxKk | sneVxKk | seVxVy | sneVxVy | skp | sknp =>
    cases h
    exact s.getV_skipIf _ r
  all_goals cases h; rfl

/-- EXECUTE of an instruction that is no branch, no skip and not Fx0A leaves PC where ADVANCE put it (R17). -/
theorem exec_pc_of_not_mayBranch {i : Instr} {s t : State} (h : exec i s = .next t) (hi : ¬ MayBranch i) :
    t.pc = s.pc := by
  cases i
  case ret | jp | call | jpV0 | seVxKk | sneVxKk | seVxVy | sneVxVy | skp | sknp | ldVxK => exact absurd trivial hi
  case ldBVx | ldMemVx =>
    cases h
    exact s.writeBytes_pc _ _
  case ldVxMem =>
    cases h
    exact s.loadRegs_pc _
  all_goals cases h; rfl

/-- EXECUTE keeps SP in 0..16: CALL pushes only below 16 and RET pops only above 0 (R20). -/
theorem exec_sp_le {i : Instr} {s t : State} (h : exec i s = .next t) (hs : s.sp.toNat ≤ 16) : t.sp.toNat ≤ 16 := by
  cases i
  case call nnn =>
    obtain ⟨-, rfl⟩ | ⟨hlt, rfl⟩ := exec_call_next h
    · exact hs
    · change (s.sp + 1).toNat ≤ 16
      bv_omega
  case ret =>
    obtain ⟨-, rfl⟩ | ⟨_, hne, rfl⟩ := exec_ret_next h
    · exact hs
    · change (s.sp - 1).toNat ≤ 16
      bv_omega
  all_goals
    obtain ⟨-, -, -, -, hkeep⟩ := exec_frame h
    obtain ⟨hsp, -, -⟩ := hkeep nofun nofun
    exact hsp ▸ hs

/-! ### The handlers of a cycle, NOP among them -/

theorem execHandler_mem_wf {w : Handler} {s t : State} (h : execHandler w s = .next t)
    (hs : Memory.wf s.font s.mem) : Memory.wf t.font t.mem := by
  cases w with
  | instr i =>
    obtain ⟨-, -, -, hmem, -⟩ := exec_frame h
    exact hmem hs
  | nop _ => cases h; exact hs

theorem execHandler_sp_le {w : Handler} {s t : State} (h : execHandler w s = .next t) (hs : s.sp.toNat ≤ 16) :
    t.sp.toNat ≤ 16 := by
  cases w with
  | instr i => exact exec_sp_le h hs
  | nop _ => cases h; exact hs

/-- A handler that raises StackFault ran with the SP that belongs to the recorded kind (R116). -/
theorem execHandler_raises {w : Handler} {s t : State} (h : execHandler w s = .next t) (hs : s.fault = .none)
    (ht : t.fault ≠ .none) :
    (s.sp = 16 ∧ t.fault = .stackOverflow) ∨ (s.sp = 0 ∧ t.fault = .stackUnderflow) := by
  cases w with
  | instr i =>
    obtain ⟨-, hsp, rfl⟩ | ⟨-, hsp, rfl⟩ := exec_raises h hs ht
    · exact .inl ⟨hsp, rfl⟩
    · exact .inr ⟨hsp, rfl⟩
  | nop _ => cases h; exact absurd hs ht

/-- `exec_stops` for every handler: NOP always completes (R67). -/
theorem execHandler_stops (w : Handler) (s : State) :
    (∃ t, execHandler w s = .next t) ∨ (16 < s.sp.toNat ∧ execHandler w s = .fault .illegalStackPointer) := by
  cases w with
  | instr i => exact exec_stops i s
  | nop _ => exact .inl ⟨s, rfl⟩

/-! ### From EXECUTE to a whole cycle -/

theorem step_of_running {s : State} (hs : s.fault = .none) :
    step s = endCycle s (execHandler (decode s.fetchWord) s.fetch.advance) := if_pos hs

theorem endCycle_next (saved u : State) : ∃ t, endCycle saved (.next u) = .next t := by
  by_cases hu : u.fault = .none
  · exact ⟨u.tick, if_pos hu⟩
  · exact ⟨saved.setFault u.fault, if_neg hu⟩

/-- A cycle answers a next state, or stops with the model's own fault and SP above 16 (R69, R114; log entry 2). -/
theorem step_stops (s : State) :
    (∃ t, step s = .next t) ∨ (16 < s.sp.toNat ∧ step s = .fault .illegalStackPointer) := by
  by_cases hs : s.fault = .none
  · rw [step_of_running hs]
    obtain ⟨u, hu⟩ | ⟨hsp, hu⟩ := execHandler_stops (decode s.fetchWord) s.fetch.advance <;> rw [hu]
    · exact .inl (endCycle_next s u)
    · exact .inr ⟨hsp, rfl⟩
  · exact .inl ⟨s, if_neg hs⟩

/-- f reads nothing of what FETCH, ADVANCE, TICK and a recorded StackFault write: the opcode register, PC, the timers
and `fault`. -/
def BlindToCycle {α : Type} (f : State → α) : Prop :=
  ∀ (s : State) (op pc : Word) (dt st : Byte) (c : FaultStatus),
    f { s with opcode := op, pc := pc, dt := dt, st := st, fault := c } = f s

/-- What a cycle shows of such an f is what EXECUTE did to it: if the instruction keeps f, so does the cycle. -/
theorem BlindToCycle.step_keeps {α : Type} {f : State → α} (hf : BlindToCycle f) {i : Instr} {s t : State}
    (hi : decode s.fetchWord = .instr i) (h : step s = .next t)
    (hexec : ∀ u, exec i s.fetch.advance = .next u → f u = f s.fetch.advance) : f t = f s := by
  obtain ⟨-, rfl⟩ | ⟨u, -, hu, ⟨-, rfl⟩ | ⟨-, rfl⟩⟩ := step_cases h
  · rfl
  · rw [hi] at hu
    calc f u.tick
      _ = f u := hf u _ _ _ _ _
      _ = f s.fetch.advance := hexec u hu
      _ = f s := hf s _ _ _ _ _
  · exact hf s _ _ _ _ _

/-! ### The invariant -/

theorem inv_resetWith (font : Config.Font) (seed : Nat) : (State.resetWith font seed).Inv where
  mem_wf := resetWith_mem_wf font seed
  sp_le := Nat.zero_le _
  overflow_full := nofun
  underflow_empty := nofun

/-- A write of bytes keeps the invariant: it reads and writes M only. -/
theorem State.Inv.writeBytes {s : State} (hs : s.Inv) (a : Nat) (ws : List Byte) : (s.writeBytes a ws).Inv where
  mem_wf := by simpa using s.writeBytes_mem_wf hs.mem_wf a ws
  sp_le := by simpa using hs.sp_le
  overflow_full := by simpa using hs.overflow_full
  underflow_empty := by simpa using hs.underflow_empty

theorem State.Inv.setKey {s : State} (hs : s.Inv) (k : Key) (pressed : Bool) : (s.setKey k pressed).Inv where
  mem_wf := hs.mem_wf
  sp_le := hs.sp_le
  overflow_full := hs.overflow_full
  underflow_empty := hs.underflow_empty

/-- Recording a StackFault beside the SP that raises it keeps the invariant (R116). -/
theorem State.Inv.setFault {s : State} (hs : s.Inv) {c : FaultStatus}
    (hc : (s.sp = 16 ∧ c = .stackOverflow) ∨ (s.sp = 0 ∧ c = .stackUnderflow)) : (s.setFault c).Inv := by
  obtain ⟨hsp, rfl⟩ | ⟨hsp, rfl⟩ := hc
  · exact ⟨hs.mem_wf, hs.sp_le, fun _ => hsp, nofun⟩
  · exact ⟨hs.mem_wf, hs.sp_le, nofun, fun _ => hsp⟩

/-- Settles O2, by `inv_resetWith`. -/
theorem resetMeetsTheInvariant : Obligations.ResetMeetsTheInvariant := inv_resetWith

/-- Settles O4, by the three ways a cycle ends: a Faulted block is unchanged; a completed handler keeps M canonical and
SP in range and records no fault; a raised StackFault is recorded beside the SP that raised it. -/
theorem everyStepKeepsTheInvariant : Obligations.EveryStepKeepsTheInvariant := by
  intro s t hinv hstep
  obtain ⟨-, rfl⟩ | ⟨u, hs, hu, ⟨hok, rfl⟩ | ⟨hraised, rfl⟩⟩ := step_cases hstep
  · exact hinv
  · have hmem : Memory.wf u.font u.mem := execHandler_mem_wf hu hinv.mem_wf
    have hsp : u.sp.toNat ≤ 16 := execHandler_sp_le hu hinv.sp_le
    exact {
      mem_wf := hmem
      sp_le := hsp
      overflow_full := fun hover => nomatch hok.symm.trans hover
      underflow_empty := fun hunder => nomatch hok.symm.trans hunder }
  · exact hinv.setFault (execHandler_raises (s := s.fetch.advance) hu hs hraised)

/-- Settles O5, by cases on the operation: Cycle is O4, Reset is O2, and LoadRom writes M only. -/
theorem everyHostOperationKeepsTheInvariant : Obligations.EveryHostOperationKeepsTheInvariant := by
  intro op s t hinv h
  cases op with
  | cycle => exact everyStepKeepsTheInvariant s t hinv h
  | reset seed => cases h; exact inv_resetWith s.font seed
  | loadRom bytes => cases h; exact hinv.writeBytes _ _
  | writeKey k pressed => cases h; exact hinv.setKey k pressed
  | readFB | readST | readFault => cases h; exact hinv

/-! ### Where a step stops -/

/-- Settles O7: of the two outcomes of `step_stops` neither is a refusal, and the stop has SP above 16. -/
theorem stepsStopOnlyOnAnIllegalStackPointer : Obligations.StepsStopOnlyOnAnIllegalStackPointer := by
  constructor
  · intro s r h
    obtain ⟨t, e⟩ | ⟨-, e⟩ := step_stops s <;> cases e.symm.trans h
  · intro s f h
    obtain ⟨t, e⟩ | ⟨hsp, -⟩ := step_stops s
    · cases e.symm.trans h
    · exact hsp

/-- Settles O8: SP above 16 is neither a full nor an empty stack and names no entry, so of the three cases of CALL and
of RET only the stop is left. -/
theorem callAndRetStopAboveTheStack : Obligations.CallAndRetStopAboveTheStack := by
  intro s hsp
  constructor
  · intro nnn
    obtain ⟨h16, -⟩ | ⟨hlt, -⟩ | ⟨-, e⟩ := execCall_cases nnn s
    · simp [h16] at hsp
    · omega
    · exact e
  · obtain ⟨h0, -⟩ | ⟨hlt, -, -⟩ | ⟨-, e⟩ := execRet_cases s
    · simp [h0] at hsp
    · omega
    · exact e

/-! ### What a step changes and leaves unchanged -/

/-- Settles O27: a Faulted block is excluded, a completed cycle ends with the PC of ADVANCE, and a StackFault is raised
by branching instructions only. -/
theorem nonBranchingInstructionsAdvanceByTwo : Obligations.NonBranchingInstructionsAdvanceByTwo := by
  intro s t i hs hi hbranch hstep
  obtain ⟨hfaulted, -⟩ | ⟨u, -, hu, ⟨-, rfl⟩ | ⟨hraised, -⟩⟩ := step_cases hstep
  · exact absurd hs hfaulted
  · rw [hi] at hu
    calc u.tick.pc
      _ = u.pc := u.tick_pc
      _ = s.fetch.advance.pc := exec_pc_of_not_mayBranch hu hbranch
      _ = s.pc + 2 := s.started_pc
  · rw [hi] at hu
    obtain ⟨⟨nnn, rfl⟩, -⟩ | ⟨rfl, -⟩ := exec_raises hu hs hraised <;> exact absurd trivial hbranch

/-- Settles O36: the rest of the cycle touches no register, and `exec_getV_of_not_writes` is EXECUTE. -/
theorem registersChangeOnlyAsNamed : Obligations.RegistersChangeOnlyAsNamed := by
  intro s t i hi hstep r hr
  have hblind : BlindToCycle (·.getV r) := fun _ _ _ _ _ _ => rfl
  exact hblind.step_keeps hi hstep fun u hu => exec_getV_of_not_writes hu hr

/-- Settles O43: the rest of the cycle touches none of the six pieces of state, and `exec_frame` and `exec_data_frame`
say which instructions do. -/
theorem eachStateIsWrittenOnlyByItsInstructions : Obligations.EachStateIsWrittenOnlyByItsInstructions := by
  intro s t i hi hstep
  have hkp : BlindToCycle State.kp := fun _ _ _ _ _ _ => rfl
  have hmem : BlindToCycle State.mem := fun _ _ _ _ _ _ => rfl
  have hindex : BlindToCycle State.index := fun _ _ _ _ _ _ => rfl
  have hsp : BlindToCycle State.sp := fun _ _ _ _ _ _ => rfl
  have hstack : BlindToCycle State.stack := fun _ _ _ _ _ _ => rfl
  have hfb : BlindToCycle State.fb := fun _ _ _ _ _ _ => rfl
  refine ⟨?kp, fun hwrites a => ?mem, fun hwrites => ?index, fun hwrites => ?sp, fun hwrites => ?stack,
    fun hwrites r c => ?fb⟩
  case kp =>
    refine hkp.step_keeps hi hstep fun u hu => ?_
    obtain ⟨hexec, -⟩ := exec_frame hu
    exact hexec
  case mem =>
    have hsame : t.mem = s.mem := hmem.step_keeps hi hstep fun u hu => by
      obtain ⟨-, hexec, -, -⟩ := exec_data_frame hu
      exact hexec hwrites
    simp only [State.readByte, hsame, step_font hstep]
  case index =>
    refine hindex.step_keeps hi hstep fun u hu => ?_
    obtain ⟨hexec, -, -, -⟩ := exec_data_frame hu
    exact hexec hwrites
  case sp =>
    refine hsp.step_keeps hi hstep fun u hu => ?_
    obtain ⟨-, -, -, -, hexec⟩ := exec_frame hu
    obtain ⟨hsame, -, -⟩ := hexec (fun nnn => (hwrites nnn).1) (hwrites 0).2
    exact hsame
  case stack =>
    refine hstack.step_keeps hi hstep fun u hu => ?_
    obtain ⟨-, -, hexec, -⟩ := exec_data_frame hu
    exact hexec hwrites
  case fb =>
    have hsame : t.fb = s.fb := hfb.step_keeps hi hstep fun u hu => by
      obtain ⟨-, -, -, hexec⟩ := exec_data_frame hu
      exact hexec hwrites
    simp only [State.cell, hsame]

/-! ### The RNG -/

/-- Settles O35: the mask 0xFF keeps every bit of the draw. -/
theorem randomDrawsAreSuccessiveFreeValues : Obligations.RandomDrawsAreSuccessiveFreeValues := by
  intro x s
  have hmask : s.randomByte &&& 0xFF = s.randomByte := BitVec.and_allOnes
  refine ⟨s.advanceRng.setV x s.randomByte, ?_, State.getV_setV_same _ x _, rfl⟩
  rw [exec_rnd, execRnd, hmask]

/-! ### The host's view -/

/-- Settles O50, by what a key reads after a write of one key. -/
theorem writeKeySetsOneKey : Obligations.WriteKeySetsOneKey := by
  intro k pressed s
  refine ⟨s.setKey k pressed, rfl, rfl, ?_, fun j hj => ?_⟩
  · rw [State.key_setKey, if_pos rfl]
  · rw [State.key_setKey, if_neg hj]

/-- ReadFB is row-major with a row stride of 64 (R23). -/
theorem readFB_getElem (s : State) (r : Fin 32) (c : Fin 64) :
    s.readFB[r.val * 64 + c.val]'(by omega) = s.cell r c := by
  have hrow : (r.val * 64 + c.val) / 64 = r.val := by omega
  have hcol : (r.val * 64 + c.val) % 64 = c.val := by omega
  simp only [State.readFB, Vector.getElem_ofFn, hrow, hcol, Fin.eta]

/-- The rendering view shows at r × 64 + c the constant of the cell (r, c) (R23, R24). -/
theorem renderFB_getElem {α : Type} (cells : Config.CellConstants α) (s : State) (r : Fin 32) (c : Fin 64) :
    (s.renderFB cells)[r.val * 64 + c.val]'(by omega) = if s.cell r c then cells.on else cells.off := by
  simp only [State.renderFB, Vector.getElem_map, readFB_getElem]

/-- Settles O51: `readFB_getElem` is ReadFB; the other replies are fields, and a read's next state is the state. -/
theorem hostReadsReturnTheState : Obligations.HostReadsReturnTheState :=
  fun s => ⟨⟨s.readFB, rfl, readFB_getElem s⟩, rfl, rfl, rfl, rfl, rfl⟩

/-- Settles O52, by cases on the cell: the two constants are distinct, so neither stands for both values (R24, D9). -/
theorem renderedCellsAreTwoValued : Obligations.RenderedCellsAreTwoValued := by
  intro α cells s r c
  simp only [renderFB_getElem]
  cases s.cell r c with
  | true => simp [cells.distinct]
  | false => simp [cells.distinct.symm]

end Sys2Proof.Machine

namespace Sys2Proof.Machine

/-! ### A running cycle of an instruction that raises no StackFault -/

/-- Only CALL and RET raise StackFault (R116), so a running block completes every other instruction and ticks (R63). -/
theorem step_next_of_running {i : Instr} {s t : State} (hs : s.fault = .none) (hi : decode s.fetchWord = .instr i)
    (hcall : ∀ nnn, i ≠ .call nnn) (hret : i ≠ .ret) (h : step s = .next t) :
    ∃ u, exec i s.fetch.advance = .next u ∧ t = u.tick := by
  obtain ⟨hfaulted, -⟩ | ⟨u, -, hu, ⟨-, rfl⟩ | ⟨hraised, -⟩⟩ := step_cases h
  · exact absurd hs hfaulted
  · rw [hi] at hu
    exact ⟨u, hu, rfl⟩
  · rw [hi] at hu
    obtain ⟨⟨nnn, rfl⟩, -⟩ | ⟨rfl, -⟩ := exec_raises hu hs hraised
    · exact absurd rfl (hcall nnn)
    · exact absurd rfl hret

/-! ### What memory reads after Fx55 and after LoadRom -/

/-- Fx55 stores V[i] at I + i: its at most 16 bytes do not run past themselves modulo 4096 (R104, R106). -/
theorem exec_ldMemVx_readByte {x : Reg} {s t : State} (h : exec (.ldMemVx x) s = .next t) {i : Nat} (hi : i ≤ x.val) :
    t.readByte (s.indexAddr i) = s.getV (regOf i) := by
  cases h
  have hlen : (s.firstRegs (x + 1)).length ≤ Config.memSize := by
    rw [State.length_firstRegs, Config.memSize]
    omega
  have hlt : i < (s.firstRegs (x + 1)).length := by
    rw [State.length_firstRegs]
    omega
  calc (s.writeBytes (s.indexAddr 0) (s.firstRegs (x + 1))).readByte (s.indexAddr i)
    _ = (s.firstRegs (x + 1))[i] := s.readByte_writeBytes_inside _ i _ hlen hlt
    _ = s.getV (regOf i) := s.getElem_firstRegs _ i hlt

/-- The bytes that LoadRom writes: the ROM up to its limit of 3584 bytes (R44). -/
theorem length_take_romLimit (bytes : List Byte) : (bytes.take Config.romLimit).length = min bytes.length 3584 := by
  rw [List.length_take, Nat.min_comm]

/-- LoadRom puts byte j of the ROM at 0x200 + j, as far as the program area reaches (R44). -/
theorem State.readByte_loadRom_inside (s : State) (bytes : List Byte) {j : Nat} (hj : j < bytes.length)
    (hlimit : j < 3584) : (s.loadRom bytes).readByte (0x200 + j) = bytes[j] := by
  have hlen : (bytes.take Config.romLimit).length ≤ Config.memSize := by
    rw [length_take_romLimit, Config.memSize]
    omega
  have hlt : j < (bytes.take Config.romLimit).length := by
    rw [length_take_romLimit]
    omega
  calc (s.loadRom bytes).readByte (0x200 + j)
    _ = (bytes.take Config.romLimit)[j] := s.readByte_writeBytes_inside _ j _ hlen hlt
    _ = bytes[j] := List.getElem_take

/-- LoadRom leaves every byte below 0x200 and from the ROM's end on: the bytes written end by 0xFFF, so none of their
addresses wraps (R44). -/
theorem State.readByte_loadRom_outside (s : State) (bytes : List Byte) {a : Nat} (ha : a < 4096)
    (hout : a < 0x200 ∨ 0x200 + min bytes.length 3584 ≤ a) : (s.loadRom bytes).readByte a = s.readByte a := by
  refine s.readByte_writeBytes_outside _ a _ fun i hi => ?_
  rw [length_take_romLimit] at hi
  simp only [memAddr, Config.memSize, Config.programBase]
  omega

/-- Settles O42: PC after the cycle is I, where Fx55 stored V0 and V1, and TICK touches neither M nor PC. -/
theorem storedCodeIsFetchedInTheNextCycle : Obligations.StoredCodeIsFetchedInTheNextCycle := by
  intro s t x hs hi hx hindex hstep
  obtain ⟨u, hu, rfl⟩ := step_next_of_running hs hi nofun nofun hstep
  have hpc : u.pc = s.index := by rw [exec_pc_of_not_mayBranch hu id, s.started_pc, hindex]
  have hhigh : u.readByte s.index.toNat = s.getV 0 := exec_ldMemVx_readByte hu (Nat.zero_le _)
  have hlow : u.readByte (s.index.toNat + 1) = s.getV 1 := exec_ldMemVx_readByte hu hx
  calc u.tick.fetchWord
    _ = opcodeOf (u.readByte u.pc.toNat) (u.readByte (u.pc.toNat + 1)) := rfl
    _ = opcodeOf (s.getV 0) (s.getV 1) := by rw [hpc, hhigh, hlow]

/-- Settles O49: LoadRom writes M only, and the two lemmas on `loadRom` say what M then reads inside the ROM and
outside. -/
theorem loadRomWritesTheProgramArea : Obligations.LoadRomWritesTheProgramArea := fun bytes s =>
  ⟨s.loadRom bytes, rfl, s.writeBytes_eq _ _, fun _ hj hlimit => s.readByte_loadRom_inside bytes hj hlimit,
    fun _ ha hout => s.readByte_loadRom_outside bytes ha hout⟩

end Sys2Proof.Machine

namespace Sys2Proof.Machine

/-! ### From a row of a decoding table to the words of the row (R10, R54 to R58)

In each lemma `hrow` is the row, on the fields of the opcode; the conclusion speaks of the word's number. In the lemmas
on a sub-table `hroute` says that the primary table sends the words with op[15:12] = o to it. -/

section Rows

variable {o n : Nat} {table : Word → Handler}

theorem WordsA.of_row {f : Addr → Instr}
    (hrow : ∀ op, field op 15 12 = o → decode op = .instr (f (fieldNnn op))) : WordsA o f := by
  intro op ho
  rw [hrow op (by rw [field_15_12, ho]), fieldNnn_eq]

theorem WordsXK.of_row {f : Reg → Byte → Instr}
    (hrow : ∀ op, field op 15 12 = o → decode op = .instr (f (fieldX op) (fieldKk op))) : WordsXK o f := by
  intro op ho
  rw [hrow op (by rw [field_15_12, ho]), fieldX_eq, fieldKk_eq]

theorem WordsXY.of_row {f : Reg → Reg → Instr}
    (hrow : ∀ op, field op 15 12 = o → decode op = .instr (f (fieldX op) (fieldY op))) : WordsXY o f := by
  intro op ho
  rw [hrow op (by rw [field_15_12, ho]), fieldX_eq, fieldY_eq]

theorem WordsXYN.of_row {f : Reg → Reg → Fin 16 → Instr}
    (hrow : ∀ op, field op 15 12 = o → decode op = .instr (f (fieldX op) (fieldY op) (fieldN op))) :
    WordsXYN o f := by
  intro op ho
  rw [hrow op (by rw [field_15_12, ho]), fieldX_eq, fieldY_eq, fieldN_eq]

/-- A row of the primary table that is a sub-table. -/
theorem decode_eq_of_row (hrow : ∀ op, field op 15 12 = o → decode op = table op) (op : Word)
    (ho : op.toNat / 4096 = o) : decode op = table op :=
  hrow op (by rw [field_15_12, ho])

theorem WordsZ.of_row {i : Instr} (hroute : ∀ op : Word, op.toNat / 4096 = 0 → decode op = table op)
    (hrow : ∀ op, field op 3 0 = n → table op = .instr i) : WordsZ n i := by
  intro op ho hn
  rw [hroute op ho, hrow op (by rw [field_3_0, hn])]

theorem WordsXYS.of_row {f : Reg → Reg → Instr}
    (hroute : ∀ op : Word, op.toNat / 4096 = o → decode op = table op)
    (hrow : ∀ op, field op 3 0 = n → table op = .instr (f (fieldX op) (fieldY op))) : WordsXYS o n f := by
  intro op ho hn
  rw [hroute op ho, hrow op (by rw [field_3_0, hn]), fieldX_eq, fieldY_eq]

theorem WordsX.of_row {f : Reg → Instr}
    (hroute : ∀ op : Word, op.toNat / 4096 = o → decode op = table op)
    (hrow : ∀ op, field op 7 0 = n → table op = .instr (f (fieldX op))) : WordsX o n f := by
  intro op ho hn
  rw [hroute op ho, hrow op (by rw [field_7_0, hn]), fieldX_eq]

end Rows

/-! ### The NOP entries of the sub-tables (R55 to R59)

Of the arms of a sub-table, those of its listed keys contradict `h`, and the last is NOP. -/

theorem decodeT0_eq_nop {op : Word} (h : op.toNat % 16 ∉ [0x0, 0xE]) : decodeT0 op = .nop .t0 := by
  rw [← field_3_0] at h
  unfold decodeT0
  split <;> simp_all

theorem decodeT8_eq_nop {op : Word} (h : op.toNat % 16 ∈ [0x8, 0x9, 0xA, 0xB, 0xC, 0xD, 0xF]) :
    decodeT8 op = .nop .t8 := by
  rw [← field_3_0] at h
  unfold decodeT8
  split <;> simp_all

theorem decodeTE_eq_nop {op : Word} (h : op.toNat % 256 ∉ [0x9E, 0xA1]) : decodeTE op = .nop .te := by
  rw [← field_7_0] at h
  unfold decodeTE
  split <;> simp_all

theorem decodeTF_eq_nop {op : Word}
    (h : op.toNat % 256 ∉ [0x07, 0x0A, 0x15, 0x18, 0x1E, 0x29, 0x33, 0x55, 0x65]) : decodeTF op = .nop .tf := by
  rw [← field_7_0] at h
  unfold decodeTF
  split <;> simp_all

/-! ### The tables -/

/-- Settles O11, row by row of the primary table (R54). -/
theorem primaryTableDecodes : Obligations.PrimaryTableDecodes := by
  refine ⟨decode_eq_of_row ?t0, .of_row ?jp, .of_row ?call, .of_row ?seVxKk, .of_row ?sneVxKk, .of_row ?seVxVy,
    .of_row ?ldVxKk, .of_row ?addVxKk, decode_eq_of_row ?t8, .of_row ?sneVxVy, .of_row ?ldI, .of_row ?jpV0,
    .of_row ?rnd, .of_row ?drw, decode_eq_of_row ?te, decode_eq_of_row ?tf⟩
  all_goals
    intro op ho
    simp only [decode, ho]

/-- Settles O12: the primary table sends the word to its sub-table, whose rows are read one by one; the `_eq_nop` lemmas
are the keys without a row. -/
theorem subTablesDecode : Obligations.SubTablesDecode := by
  obtain ⟨t0, -, -, -, -, -, -, -, t8, -, -, -, -, -, te, tf⟩ := primaryTableDecodes
  refine ⟨.of_row t0 ?cls, .of_row t0 ?ret, fun op ho hkey => (t0 op ho).trans (decodeT0_eq_nop hkey),
    .of_row t8 ?ldVxVy, .of_row t8 ?orVxVy, .of_row t8 ?andVxVy, .of_row t8 ?xorVxVy, .of_row t8 ?addVxVy,
    .of_row t8 ?subVxVy, .of_row t8 ?shrVx, .of_row t8 ?subnVxVy, .of_row t8 ?shlVx,
    fun op ho hkey => (t8 op ho).trans (decodeT8_eq_nop hkey),
    .of_row te ?skp, .of_row te ?sknp, fun op ho hkey => (te op ho).trans (decodeTE_eq_nop hkey),
    .of_row tf ?ldVxDt, .of_row tf ?ldVxK, .of_row tf ?ldDtVx, .of_row tf ?ldStVx, .of_row tf ?addIVx,
    .of_row tf ?ldFVx, .of_row tf ?ldBVx, .of_row tf ?ldMemVx, .of_row tf ?ldVxMem,
    fun op ho hkey => (tf op ho).trans (decodeTF_eq_nop hkey)⟩
  all_goals
    intro op hkey
    simp only [decodeT0, decodeT8, decodeTE, decodeTF, hkey]

/-- Settles O10, by running the decoder on each word. -/
theorem workedExampleWordsDecode : Obligations.WorkedExampleWordsDecode := by
  unfold Obligations.WorkedExampleWordsDecode
  decide

/-! ### Decoding an encoded word, once for each format of R52

The row of a table decodes the word that the format's encoder lays out with the row's selectors to the row's
instruction, with the encoded fields. -/

section Formats

variable {o n : Nat}

theorem WordsA.decode_encodeA {f : Addr → Instr} (h : WordsA o f) (nnn : Addr) (ho : o < 16 := by decide) :
    decode (encodeA o nnn) = .instr (f nnn) := by
  have hword := toNat_encodeA o nnn ho
  have hnnn : BitVec.ofNat 12 (encodeA o nnn).toNat = nnn := by
    apply BitVec.eq_of_toNat_eq
    rw [hword, BitVec.toNat_ofNat]
    omega
  rw [h _ (by omega), hnnn]

theorem WordsXK.decode_encodeXK {f : Reg → Byte → Instr} (h : WordsXK o f) (x : Reg) (kk : Byte)
    (ho : o < 16 := by decide) : decode (encodeXK o x kk) = .instr (f x kk) := by
  have hword := toNat_encodeXK o x kk ho
  have hx : Fin.ofNat 16 ((encodeXK o x kk).toNat / 256) = x := by
    apply Fin.ext
    rw [hword, Fin.val_ofNat]
    omega
  have hkk : BitVec.ofNat 8 (encodeXK o x kk).toNat = kk := by
    apply BitVec.eq_of_toNat_eq
    rw [hword, BitVec.toNat_ofNat]
    omega
  rw [h _ (by omega), hx, hkk]

/-- The fields x, y and s of a word of format XY, as numbers. -/
theorem fields_encodeXY (x y : Reg) (ho : o < 16) (hn : n < 16) :
    (encodeXY o x y n).toNat / 4096 = o ∧ Fin.ofNat 16 ((encodeXY o x y n).toNat / 256) = x ∧
      Fin.ofNat 16 ((encodeXY o x y n).toNat / 16) = y ∧ (encodeXY o x y n).toNat % 16 = n := by
  rw [toNat_encodeXY o x y n ho hn]
  refine ⟨by omega, Fin.ext ?_, Fin.ext ?_, by omega⟩ <;>
  · rw [Fin.val_ofNat]
    omega

theorem WordsXY.decode_encodeXY {f : Reg → Reg → Instr} (h : WordsXY o f) (x y : Reg) (ho : o < 16 := by decide) :
    decode (encodeXY o x y 0) = .instr (f x y) := by
  obtain ⟨hprimary, hx, hy, -⟩ := fields_encodeXY x y ho (n := 0) (by decide)
  rw [h _ hprimary, hx, hy]

theorem WordsXYS.decode_encodeXY {f : Reg → Reg → Instr} (h : WordsXYS o n f) (x y : Reg)
    (ho : o < 16 := by decide) (hn : n < 16 := by decide) : decode (encodeXY o x y n) = .instr (f x y) := by
  obtain ⟨hprimary, hx, hy, hkey⟩ := fields_encodeXY x y ho hn
  rw [h _ hprimary hkey, hx, hy]

theorem WordsXYN.decode_encodeXY {f : Reg → Reg → Fin 16 → Instr} (h : WordsXYN o f) (x y : Reg) (rows : Fin 16)
    (ho : o < 16 := by decide) : decode (encodeXY o x y rows) = .instr (f x y rows) := by
  obtain ⟨hprimary, hx, hy, hrows⟩ := fields_encodeXY x y ho rows.isLt
  rw [h _ hprimary, hx, hy, show Fin.ofNat 16 (encodeXY o x y rows).toNat = rows from Fin.ext hrows]

theorem WordsX.decode_encodeX {f : Reg → Instr} (h : WordsX o n f) (x : Reg) (ho : o < 16 := by decide)
    (hn : n < 256 := by decide) : decode (encodeX o x n) = .instr (f x) := by
  have hword := toNat_encodeX o x n ho hn
  have hx : Fin.ofNat 16 ((encodeX o x n).toNat / 256) = x := by
    apply Fin.ext
    rw [hword, Fin.val_ofNat]
    omega
  rw [h _ (by omega) (by omega), hx]

end Formats

/-- Decoding inverts encoding, by cases on the instruction: its row in the tables, read on its format. -/
theorem decode_encode (i : Instr) : decode (encode i) = .instr i := by
  obtain ⟨-, jp, call, seVxKk, sneVxKk, seVxVy, ldVxKk, addVxKk, -, sneVxVy, ldI, jpV0, rnd, drw, -, -⟩ :=
    primaryTableDecodes
  obtain ⟨cls, ret, -, ldVxVy, orVxVy, andVxVy, xorVxVy, addVxVy, subVxVy, shrVx, subnVxVy, shlVx, -, skp, sknp, -,
    ldVxDt, ldVxK, ldDtVx, ldStVx, addIVx, ldFVx, ldBVx, ldMemVx, ldVxMem, -⟩ := subTablesDecode
  cases i with
  | cls => exact cls 0x00E0 (by decide) (by decide)
  | ret => exact ret 0x00EE (by decide) (by decide)
  | jp nnn => exact jp.decode_encodeA nnn
  | call nnn => exact call.decode_encodeA nnn
  | seVxKk x kk => exact seVxKk.decode_encodeXK x kk
  | sneVxKk x kk => exact sneVxKk.decode_encodeXK x kk
  | seVxVy x y => exact seVxVy.decode_encodeXY x y
  | ldVxKk x kk => exact ldVxKk.decode_encodeXK x kk
  | addVxKk x kk => exact addVxKk.decode_encodeXK x kk
  | ldVxVy x y => exact ldVxVy.decode_encodeXY x y
  | orVxVy x y => exact orVxVy.decode_encodeXY x y
  | andVxVy x y => exact andVxVy.decode_encodeXY x y
  | xorVxVy x y => exact xorVxVy.decode_encodeXY x y
  | addVxVy x y => exact addVxVy.decode_encodeXY x y
  | subVxVy x y => exact subVxVy.decode_encodeXY x y
  | shrVx x y => exact shrVx.decode_encodeXY x y
  | subnVxVy x y => exact subnVxVy.decode_encodeXY x y
  | shlVx x y => exact shlVx.decode_encodeXY x y
  | sneVxVy x y => exact sneVxVy.decode_encodeXY x y
  | ldI nnn => exact ldI.decode_encodeA nnn
  | jpV0 nnn => exact jpV0.decode_encodeA nnn
  | rnd x kk => exact rnd.decode_encodeXK x kk
  | drw x y n => exact drw.decode_encodeXY x y n
  | skp x => exact skp.decode_encodeX x
  | sknp x => exact sknp.decode_encodeX x
  | ldVxDt x => exact ldVxDt.decode_encodeX x
  | ldVxK x => exact ldVxK.decode_encodeX x
  | ldDtVx x => exact ldDtVx.decode_encodeX x
  | ldStVx x => exact ldStVx.decode_encodeX x
  | addIVx x => exact addIVx.decode_encodeX x
  | ldFVx x => exact ldFVx.decode_encodeX x
  | ldBVx x => exact ldBVx.decode_encodeX x
  | ldMemVx x => exact ldMemVx.decode_encodeX x
  | ldVxMem x => exact ldVxMem.decode_encodeX x

/-- Settles O9: `decode_encode` is the words, and the two bytes of a word make the word again (R37, R51). -/
theorem decodeOfEncodeIsTheInstruction : Obligations.DecodeOfEncodeIsTheInstruction := by
  intro i
  refine ⟨decode_encode i, ?_⟩
  rw [encodeBytes, decodeBytes, opcodeOf_bytesOf, decode_encode]

/-! ### The ignored bits (R60) -/

/-- A row of the primary table without op[3:0] decodes a word as the word with op[3:0] = 0. -/
theorem WordsXY.decode_clear_low_nibble {o : Nat} {f : Reg → Reg → Instr} (h : WordsXY o f) {op : Word}
    (ho : op.toNat / 4096 = o) : decode op = decode (BitVec.ofNat 16 (op.toNat / 16 * 16)) := by
  have hword : (BitVec.ofNat 16 (op.toNat / 16 * 16)).toNat = op.toNat / 16 * 16 := by
    rw [BitVec.toNat_ofNat]
    omega
  have hx : op.toNat / 16 * 16 / 256 = op.toNat / 256 := by omega
  have hy : op.toNat / 16 * 16 / 16 = op.toNat / 16 := by omega
  rw [h op ho, h _ (by omega), hword, hx, hy]

/-- Settles O13: a word and its canonical form lie in the same row of the tables, and the meanings of SHR and SHL do not
take y. -/
theorem aliasWordsRunAsTheCanonicalWord : Obligations.AliasWordsRunAsTheCanonicalWord := by
  obtain ⟨-, -, -, -, -, seVxVy, -, -, -, sneVxVy, -⟩ := primaryTableDecodes
  obtain ⟨cls, ret, -⟩ := subTablesDecode
  refine ⟨fun op ho hn => ?cls, fun op ho hn => ?ret, fun op ho => ?registerSkips, fun x y s => ?shifts⟩
  case cls => rw [cls op ho hn, cls 0x00E0 (by decide) (by decide)]
  case ret => rw [ret op ho hn, ret 0x00EE (by decide) (by decide)]
  case registerSkips =>
    obtain ho | ho := ho
    · exact seVxVy.decode_clear_low_nibble ho
    · exact sneVxVy.decode_clear_low_nibble ho
  case shifts => simp only [exec_shrVx, exec_shlVx, and_self]

end Sys2Proof.Machine

namespace Sys2Proof.Machine

/-! ### Every cycle from a legal state completes -/

/-- Settles O6: the stop of `step_stops` has SP above 16, which the invariant excludes (R20). -/
theorem everyCycleCompletesFromALegalState : Obligations.EveryCycleCompletesFromALegalState := by
  intro s hinv
  obtain hnext | ⟨hsp, -⟩ := step_stops s
  · exact hnext
  · exact absurd hinv.sp_le (Nat.not_le_of_lt hsp)

/-! ### A running cycle by what its word decodes to (R63, R65) -/

theorem step_of_nop {s : State} {why : Unknown} (hs : s.fault = .none) (hw : decode s.fetchWord = .nop why) :
    step s = .next s.fetch.advance.tick := by
  calc step s
    _ = endCycle s (.next s.fetch.advance) := by rw [step_of_running hs, hw]; rfl
    _ = .next s.fetch.advance.tick := if_pos hs

theorem step_of_instr {s : State} {i : Instr} (hs : s.fault = .none) (hi : decode s.fetchWord = .instr i) :
    step s = endCycle s (exec i s.fetch.advance) := by
  rw [step_of_running hs, hi]
  rfl

/-- Settles O15: NOP writes nothing, so the cycle is FETCH, ADVANCE and TICK. -/
theorem unknownWordIsANoOp : Obligations.UnknownWordIsANoOp := fun _ _ hs hw => step_of_nop hs hw

/-! ### The fetched word as a number -/

/-- An access reduces its address modulo 4096, so reducing it before changes nothing (R36). -/
@[simp] theorem State.readByte_mod (s : State) (a : Nat) : s.readByte (a % 4096) = s.readByte a :=
  congrArg (memLookup s.font s.mem) (memAddr_memAddr a)

/-- FETCH reads the high byte at PC and the low byte after it, both modulo 4096 (R36, R37). -/
theorem State.fetchWord_eq_ofNat (s : State) : s.fetchWord = BitVec.ofNat 16
    ((s.readByte (s.pc.toNat % 4096)).toNat * 256 + (s.readByte ((s.pc.toNat + 1) % 4096)).toNat) := by
  rw [s.readByte_mod, s.readByte_mod, ← toNat_opcodeOf, BitVec.ofNat_toNat, BitVec.setWidth_eq, State.fetchWord]

/-- ADVANCE adds 2 to PC modulo 65536 (R64). -/
theorem State.started_eq (s : State) :
    s.fetch.advance = { s with opcode := s.fetchWord, pc := BitVec.ofNat 16 (s.pc.toNat + 2) } := by
  rw [BitVec.ofNat_add, BitVec.ofNat_toNat, BitVec.setWidth_eq]
  rfl

/-- Settles O14: a Faulted block takes the other branch of `step`; a running one starts EXECUTE in the state of
`State.started_eq`, and the end of its cycle is read off the outcome of EXECUTE. -/
theorem stepRunsTheDecodedInstruction : Obligations.StepRunsTheDecodedInstruction := by
  intro s
  refine ⟨fun hfaulted => if_neg hfaulted, fun hs => ?_⟩
  rw [← s.fetchWord_eq_ofNat]
  intro op started ticked
  have hstarted : s.fetch.advance = started := s.started_eq
  refine ⟨fun why hw => ?nop, fun i hi => ?instr⟩
  case nop => rw [step_of_nop hs hw, hstarted]; rfl
  case instr =>
    rw [step_of_instr hs hi, hstarted]
    cases exec i started with
    | next t => rfl
    | fault r => rfl
    | refused r => rfl

/-! ### The timers in a cycle (R68) -/

/-- EXECUTE writes DT only in Fx15 and ST only in Fx18 (R21, R22, R111, R112). -/
theorem exec_timer_frame {i : Instr} {s t : State} (h : exec i s = .next t) :
    ((∀ x, i ≠ .ldDtVx x) → t.dt = s.dt) ∧ ((∀ x, i ≠ .ldStVx x) → t.st = s.st) := by
  cases i
  case call nnn => obtain ⟨-, rfl⟩ | ⟨_, rfl⟩ := exec_call_next h <;> exact ⟨fun _ => rfl, fun _ => rfl⟩
  case ret => obtain ⟨-, rfl⟩ | ⟨_, -, rfl⟩ := exec_ret_next h <;> exact ⟨fun _ => rfl, fun _ => rfl⟩
  case ldVxK x => obtain ⟨_, rfl⟩ | rfl := exec_ldVxK_next h <;> exact ⟨fun _ => rfl, fun _ => rfl⟩
  case ldDtVx x =>
    cases h
    exact ⟨fun hi => absurd rfl (hi x), fun _ => rfl⟩
  case ldStVx x =>
    cases h
    exact ⟨fun _ => rfl, fun hi => absurd rfl (hi x)⟩
  case ldBVx | ldMemVx =>
    cases h
    exact ⟨fun _ => s.writeBytes_dt _ _, fun _ => s.writeBytes_st _ _⟩
  case ldVxMem =>
    cases h
    exact ⟨fun _ => s.loadRegs_dt _, fun _ => s.loadRegs_st _⟩
  case seVxKk | sneVxKk | seVxVy | sneVxVy | skp | sknp =>
    cases h
    exact ⟨fun _ => s.skipIf_dt _, fun _ => s.skipIf_st _⟩
  all_goals
    cases h
    exact ⟨fun _ => rfl, fun _ => rfl⟩

/-- `exec_timer_frame` for every handler: NOP writes no timer (R67). -/
theorem execHandler_timer_frame {w : Handler} {s t : State} (h : execHandler w s = .next t) :
    ((∀ x, w ≠ .instr (.ldDtVx x)) → t.dt = s.dt) ∧ ((∀ x, w ≠ .instr (.ldStVx x)) → t.st = s.st) := by
  cases w with
  | instr i =>
    obtain ⟨hdt, hst⟩ := exec_timer_frame h
    exact ⟨fun hw => hdt fun x e => hw x (e ▸ rfl), fun hw => hst fun x e => hw x (e ▸ rfl)⟩
  | nop _ => cases h; exact ⟨fun _ => rfl, fun _ => rfl⟩

/-- A cycle that leaves the block running ran its handler to the end and ticked (R63). -/
theorem step_completed {s t : State} (h : step s = .next t) (ht : t.fault = .none) :
    ∃ u, execHandler (decode s.fetchWord) s.fetch.advance = .next u ∧ t = u.tick := by
  obtain ⟨hfaulted, rfl⟩ | ⟨u, -, hu, ⟨-, rfl⟩ | ⟨hraised, rfl⟩⟩ := step_cases h
  · exact absurd ht hfaulted
  · exact ⟨u, hu, rfl⟩
  · exact absurd ht hraised

/-- A cycle that leaves the block Faulted changes no more than `fault` (R116, R117). -/
theorem step_faulted {s t : State} (h : step s = .next t) (ht : t.fault ≠ .none) : t = s.setFault t.fault := by
  obtain ⟨-, rfl⟩ | ⟨u, -, -, ⟨hok, rfl⟩ | ⟨-, rfl⟩⟩ := step_cases h
  · rfl
  · exact absurd hok ht
  · rfl

/-- Settles O16: TICK takes one from what the handler left, which is V[x] in the timer's own instruction and the old
value in every other; a cycle that ends Faulted does not tick. -/
theorem timersTickOncePerCompletedCycle : Obligations.TimersTickOncePerCompletedCycle := by
  refine ⟨fun s t _ hstep ht => ?completed, fun s t hstep ht => ?faulted⟩
  case completed =>
    obtain ⟨u, hu, rfl⟩ := step_completed hstep ht
    obtain ⟨hdt, hst⟩ := execHandler_timer_frame hu
    rw [u.tick_dt, u.tick_st, toNat_tickTimer, toNat_tickTimer]
    refine ⟨fun x hw => ?setDt, fun hw => ?keepDt, fun x hw => ?setSt, fun hw => ?keepSt⟩
    case setDt | setSt =>
      rw [hw] at hu
      cases hu
      rfl
    case keepDt => rw [hdt hw, s.started_dt]
    case keepSt => rw [hst hw, s.started_st]
  case faulted =>
    rw [step_faulted hstep ht]
    exact ⟨rfl, rfl⟩

end Sys2Proof.Machine

namespace Sys2Proof.Machine

/-! ### The cells and the flag as the display instructions leave them -/

@[simp] theorem State.cell_setFb (s : State) (fb : FrameBuffer) (r : Fin 32) (c : Fin 64) :
    (s.setFb fb).cell r c = fb[r][c] := rfl

theorem getElem_blankScreen (r : Fin 32) (c : Fin 64) : blankScreen[r][c] = false := by
  simp [blankScreen]

theorem flagOf_eq_one {b : Bool} : flagOf b = 1 ↔ b = true := by cases b <;> decide

theorem flagOf_eq_zero {b : Bool} : flagOf b = 0 ↔ b = false := by cases b <;> decide

/-- Settles O44: the row of T0 whose key is 0, and the cells of the blank screen. -/
theorem clsTurnsEveryCellOff : Obligations.ClsTurnsEveryCellOff := by
  obtain ⟨cls, -⟩ := subTablesDecode
  exact ⟨cls, fun s => ⟨s.setFb blankScreen, rfl, rfl, getElem_blankScreen⟩⟩

/-! ### DRW: the cells, the flag, and the sprite seen again (R72 to R75) -/

section Drw

variable {x y : Reg} {n : Fin 16} {s t : State} (h : exec (.drw x y n) s = .next t)
include h

open Classical in
/-- DRW is FB XOR the sprite's mask (R75). -/
theorem exec_drw_cell (r : Fin 32) (c : Fin 64) :
    t.cell r c = (s.cell r c ^^ decide (s.SpriteCovers x y n r c)) := by
  cases h
  rw [State.cell_setV, State.cell_setFb, plotRows_cell]
  simp only [rowsCover_iff_spriteCovers]

theorem exec_drw_cell_of_covers {r : Fin 32} {c : Fin 64} (hcov : s.SpriteCovers x y n r c) :
    t.cell r c = !s.cell r c := by
  simp only [exec_drw_cell h, hcov, decide_true, Bool.xor_true]

theorem exec_drw_cell_of_not_covers {r : Fin 32} {c : Fin 64} (hcov : ¬ s.SpriteCovers x y n r c) :
    t.cell r c = s.cell r c := by
  simp only [exec_drw_cell h, hcov, decide_false, Bool.xor_false]

theorem exec_drw_flag_eq_one : t.getV 15 = 1 ↔ ∃ r c, s.SpriteCovers x y n r c ∧ s.cell r c = true := by
  cases h
  rw [State.getV_setV_same, flagOf_eq_one, plotRows_collided]
  simp only [rowsCover_iff_spriteCovers]

theorem exec_drw_flag_eq_zero : t.getV 15 = 0 ↔ ¬ ∃ r c, s.SpriteCovers x y n r c ∧ s.cell r c = true := by
  rw [← exec_drw_flag_eq_one h]
  cases h
  rw [State.getV_setV_same, flagOf_eq_zero, flagOf_eq_one, Bool.not_eq_true]

/-- DRW changes neither M nor I, and of the registers only VF: with neither coordinate there, the same sprite covers the
same cells afterwards. -/
theorem exec_drw_spriteCovers (hx : x ≠ 15) (hy : y ≠ 15) (r : Fin 32) (c : Fin 64) :
    t.SpriteCovers x y n r c ↔ s.SpriteCovers x y n r c := by
  have hvx : t.getV x = s.getV x := exec_getV_of_not_writes h hx
  have hvy : t.getV y = s.getV y := exec_getV_of_not_writes h hy
  have hindex : t.index = s.index := by cases h; rfl
  have hbyte (a : Nat) : t.readByte a = s.readByte a := by cases h; rfl
  simp only [State.SpriteCovers, hvx, hvy, hindex, hbyte]

/-- The cells that DRW turns on are the covered ones that are on after it. -/
theorem exec_drw_turned_on (r : Fin 32) (c : Fin 64) :
    s.cell r c = false ∧ t.cell r c = true ↔ s.SpriteCovers x y n r c ∧ t.cell r c = true := by
  by_cases hcov : s.SpriteCovers x y n r c
  · simp [exec_drw_cell_of_covers h hcov, hcov]
  · simp [exec_drw_cell_of_not_covers h hcov, hcov]

end Drw

/-- Settles O45: the row of the primary table, the mask by XOR and the collision. -/
theorem drwXorsTheSpriteAndFlagsCollisions : Obligations.DrwXorsTheSpriteAndFlagsCollisions := by
  obtain ⟨-, -, -, -, -, -, -, -, -, -, -, -, -, drw, -⟩ := primaryTableDecodes
  refine ⟨drw, fun x y n s => ?_⟩
  obtain ⟨t, h⟩ : ∃ t, exec (.drw x y n) s = .next t := ⟨_, rfl⟩
  refine ⟨t, h, ?frame, fun _ _ => exec_drw_cell_of_covers h, fun _ _ => exec_drw_cell_of_not_covers h,
    (exec_drw_flag_eq_one h).2, (exec_drw_flag_eq_zero h).2⟩
  case frame =>
    cases h
    rw [State.getV_setV_same]
    rfl

/-- Settles O46: the second draw has the mask of the first (`exec_drw_spriteCovers`), and XOR with one mask twice is the
identity; it collides on the covered cells that are on, which are those the first draw turned on. -/
theorem drawingTwiceRestoresTheScreen : Obligations.DrawingTwiceRestoresTheScreen := by
  intro x y n s hx hy
  obtain ⟨t, ht⟩ : ∃ t, exec (.drw x y n) s = .next t := ⟨_, rfl⟩
  obtain ⟨u, hu⟩ : ∃ u, exec (.drw x y n) t = .next u := ⟨_, rfl⟩
  have hmask := exec_drw_spriteCovers ht hx hy
  refine ⟨t, u, ht, hu, fun r c => ?restored, ?collides, ?flag⟩
  case restored =>
    classical
    rw [exec_drw_cell hu, exec_drw_cell ht, Bool.xor_assoc, decide_eq_decide.2 (hmask r c), Bool.xor_self,
      Bool.xor_false]
  case collides =>
    simp only [exec_drw_flag_eq_one hu, hmask, exec_drw_turned_on ht]
  case flag =>
    rw [exec_drw_flag_eq_zero hu, exec_drw_flag_eq_one hu]
    exact (em _).symm

end Sys2Proof.Machine

namespace Sys2Proof.Machine

/-! ### CALL and RET as equations where they complete or raise StackFault (R78, R80, R116) -/

theorem exec_call_overflow (nnn : Addr) {s : State} (hsp : s.sp = 16) :
    exec (.call nnn) s = .next (s.setFault .stackOverflow) := by
  obtain ⟨-, e⟩ | ⟨hlt, -⟩ | ⟨hgt, -⟩ := execCall_cases nnn s
  · exact e
  · simp [hsp] at hlt
  · simp [hsp] at hgt

theorem exec_call_push (nnn : Addr) {s : State} (hlt : s.sp.toNat < 16) :
    exec (.call nnn) s =
      .next (((s.setStack ⟨s.sp.toNat, hlt⟩ s.pc).setSp (s.sp + 1)).setPc (zextAddr nnn)) := by
  obtain ⟨hsp, -⟩ | ⟨_, e⟩ | ⟨hgt, -⟩ := execCall_cases nnn s
  · simp [hsp] at hlt
  · exact e
  · omega

theorem exec_ret_underflow {s : State} (hsp : s.sp = 0) : exec .ret s = .next (s.setFault .stackUnderflow) := by
  obtain ⟨-, e⟩ | ⟨_, hne, -⟩ | ⟨hgt, -⟩ := execRet_cases s
  · exact e
  · exact absurd hsp hne
  · simp [hsp] at hgt

theorem exec_ret_pop {s : State} (hne : s.sp ≠ 0) (hlt : s.sp.toNat - 1 < 16) :
    exec .ret s = .next ((s.setSp (s.sp - 1)).setPc s.stack[s.sp.toNat - 1]) := by
  obtain ⟨hsp, -⟩ | ⟨_, -, e⟩ | ⟨hgt, -⟩ := execRet_cases s
  · exact absurd hsp hne
  · exact e
  · omega

/-! ### Jump targets as numbers (R79, R85) -/

theorem zextAddr_eq_ofNat (nnn : Addr) : zextAddr nnn = BitVec.ofNat 16 nnn.toNat := by
  rw [← toNat_zextAddr, BitVec.ofNat_toNat, BitVec.setWidth_eq]

theorem zextByte_eq_ofNat (b : Byte) : zextByte b = BitVec.ofNat 16 b.toNat := by
  rw [← toNat_zextByte, BitVec.ofNat_toNat, BitVec.setWidth_eq]

/-! ### Skips (R77) -/

/-- A skip whose Boolean test decides p adds 2 to PC exactly when p holds, and writes nothing else. -/
theorem State.skipIf_of_iff (s : State) {c : Bool} {p : Prop} [Decidable p] (hc : c = true ↔ p) :
    s.skipIf c = { s with pc := if p then s.pc + 2 else s.pc } := by
  by_cases hp : p
  · rw [hc.2 hp, if_pos hp]; rfl
  · rw [Bool.eq_false_iff.2 (mt hc.1 hp), if_neg hp]; rfl

/-! ### The control-flow statements -/

/-- Settles O20: the row of T0 whose key is 0xE, and the underflow and the pop of RET. -/
theorem retPopsThePc : Obligations.RetPopsThePc := by
  obtain ⟨-, ret, -⟩ := subTablesDecode
  exact ⟨ret, fun s => ⟨exec_ret_underflow, exec_ret_pop⟩⟩

/-- Settles O21: the row of the primary table, and the overflow and the push of CALL. -/
theorem callPushesThePc : Obligations.CallPushesThePc := by
  obtain ⟨-, -, call, -⟩ := primaryTableDecodes
  refine ⟨call, fun nnn s => ⟨exec_call_overflow nnn, fun hlt => ?push⟩⟩
  case push =>
    rw [exec_call_push nnn hlt, zextAddr_eq_ofNat]
    rfl

/-- Settles O22: SP + 1 is not 0 and does not wrap, so RET pops the entry at the old SP, which is the one CALL wrote. -/
theorem callThenRetReturns : Obligations.CallThenRetReturns := by
  intro nnn s hlt
  refine ⟨_, exec_call_push nnn hlt, fun u (hsp : u.sp = s.sp + 1) hstack => ?_⟩
  have hne : u.sp ≠ 0 := by bv_omega
  have hslot : u.sp.toNat - 1 = s.sp.toNat := by bv_omega
  refine ⟨_, exec_ret_pop hne (hslot ▸ hlt), ?pc, ?sp, hstack⟩
  case pc => simp [hstack, hslot]
  case sp => simp [hsp]

/-- Settles O23: the rows of the primary table, and the two targets as numbers. -/
theorem jumpsGoToTheirTarget : Obligations.JumpsGoToTheirTarget := by
  obtain ⟨-, jp, -, -, -, -, -, -, -, -, -, jpV0, -⟩ := primaryTableDecodes
  refine ⟨jp, jpV0, fun nnn s => ⟨?jp, ?jpV0⟩⟩
  case jp =>
    rw [exec_jp, execJp, zextAddr_eq_ofNat]
    rfl
  case jpV0 =>
    rw [exec_jpV0, execJpV0, zextAddr_eq_ofNat, zextByte_eq_ofNat, ← BitVec.ofNat_add]
    rfl

/-- Settles O24: the rows of the primary table, and `State.skipIf_of_iff` with the comparison with kk. -/
theorem immediateSkipsAddTwo : Obligations.ImmediateSkipsAddTwo := by
  obtain ⟨-, -, -, seVxKk, sneVxKk, -⟩ := primaryTableDecodes
  refine ⟨seVxKk, sneVxKk, fun x kk s => ⟨?se, ?sne⟩⟩
  case se => rw [exec_seVxKk, execSeVxKk, s.skipIf_of_iff beq_iff_eq]
  case sne => rw [exec_sneVxKk, execSneVxKk, s.skipIf_of_iff bne_iff_ne]

/-- Settles O25: the rows of the primary table, which do not examine op[3:0], and `State.skipIf_of_iff` with the
comparison of the two registers. -/
theorem registerSkipsAddTwo : Obligations.RegisterSkipsAddTwo := by
  obtain ⟨-, -, -, -, -, seVxVy, -, -, -, sneVxVy, -⟩ := primaryTableDecodes
  refine ⟨seVxVy, sneVxVy, fun x y s => ⟨?se, ?sne⟩⟩
  case se => rw [exec_seVxVy, execSeVxVy, s.skipIf_of_iff beq_iff_eq]
  case sne => rw [exec_sneVxVy, execSneVxVy, s.skipIf_of_iff bne_iff_ne]

end Sys2Proof.Machine

namespace Sys2Proof.Machine

/-! ### Results and flags of the ALU as numbers (R86, R88, R93 to R97) -/

theorem add_eq_ofNat (a b : Byte) : a + b = BitVec.ofNat 8 (a.toNat + b.toNat) := by
  rw [BitVec.ofNat_add, BitVec.ofNat_toNat, BitVec.ofNat_toNat, BitVec.setWidth_eq, BitVec.setWidth_eq]

/-- The 256 keeps the difference of numbers from stopping at 0 where the difference of bytes wraps. -/
theorem sub_eq_ofNat (a b : Byte) : a - b = BitVec.ofNat 8 (256 + a.toNat - b.toNat) := by
  bv_omega

theorem ushiftRight_one_eq_ofNat (a : Byte) : a >>> 1 = BitVec.ofNat 8 (a.toNat / 2) := by
  bv_omega

theorem shiftLeft_one_eq_ofNat (a : Byte) : a <<< 1 = BitVec.ofNat 8 (a.toNat * 2) := by
  bv_omega

theorem shiftedOutRight_eq_ofNat (a : Byte) : shiftedOutRight a = BitVec.ofNat 8 (a.toNat % 2) := by
  rw [← toNat_shiftedOutRight, BitVec.ofNat_toNat, BitVec.setWidth_eq]

theorem shiftedOutLeft_eq_ofNat (a : Byte) : shiftedOutLeft a = BitVec.ofNat 8 (a.toNat / 128) := by
  rw [← toNat_shiftedOutLeft, BitVec.ofNat_toNat, BitVec.setWidth_eq]

/-! ### The instructions that write a flag -/

/-- Settles O30: the row of T8, and the sum and its carry as numbers. -/
theorem addWritesTheLowByteAndTheCarry : Obligations.AddWritesTheLowByteAndTheCarry := by
  obtain ⟨-, -, -, -, -, -, -, addVxVy, -⟩ := subTablesDecode
  refine ⟨addVxVy, fun x y s => ?_⟩
  rw [exec_addVxVy, execAddVxVy, add_eq_ofNat, carryFlag_eq]
  rfl

/-- Settles O31: the rows of T8, and the two differences and their flags as numbers. -/
theorem subtractionsWriteTheDifferenceAndStrictGreater :
    Obligations.SubtractionsWriteTheDifferenceAndStrictGreater := by
  obtain ⟨-, -, -, -, -, -, -, -, subVxVy, -, subnVxVy, -⟩ := subTablesDecode
  refine ⟨subVxVy, subnVxVy, fun x y s => ⟨?sub, ?subn⟩⟩
  case sub =>
    rw [exec_subVxVy, execSubVxVy, sub_eq_ofNat, greaterFlag_eq]
    rfl
  case subn =>
    rw [exec_subnVxVy, execSubnVxVy, sub_eq_ofNat, greaterFlag_eq]
    rfl

/-- Settles O32: the rows of T8, and the shifted byte and the bit shifted out as numbers. -/
theorem shiftsWriteTheBitShiftedOut : Obligations.ShiftsWriteTheBitShiftedOut := by
  obtain ⟨-, -, -, -, -, -, -, -, -, shrVx, -, shlVx, -⟩ := subTablesDecode
  refine ⟨shrVx, shlVx, fun x y s => ⟨?shr, ?shl⟩⟩
  case shr =>
    rw [exec_shrVx, execShrVx, ushiftRight_one_eq_ofNat, shiftedOutRight_eq_ofNat]
    rfl
  case shl =>
    rw [exec_shlVx, execShlVx, shiftLeft_one_eq_ofNat, shiftedOutLeft_eq_ofNat]
    rfl

/-- A number below 2 as a flag byte: the shape in which WritesFlagLast speaks of VF. -/
theorem ofNat_bit_eq_ite {n : Nat} {flag : Prop} [Decidable flag] (hn : n < 2) (hflag : flag ↔ n = 1) :
    BitVec.ofNat 8 n = if flag then 1 else 0 := by
  by_cases hf : flag
  · rw [if_pos hf, hflag.1 hf]
    rfl
  · have hzero : n = 0 := by have := mt hflag.2 hf; omega
    rw [if_neg hf, hzero]
    rfl

/-- An instruction whose whole effect is a result in V[x] and then a flag in VF keeps the VF contract (R99). -/
theorem writesFlagLast_of_exec {i : Instr} {s : State} {x : Reg} {n result : Nat} {f : Byte} {flag : Prop}
    [Decidable flag] (h : exec i s = .next (s.setResultThenFlag x (BitVec.ofNat 8 n) f)) (hresult : n % 256 = result)
    (hflag : f = if flag then 1 else 0) : WritesFlagLast i s x result flag := by
  have hVF : (s.setResultThenFlag x (BitVec.ofNat 8 n) f).getV 15 = if flag then 1 else 0 := by
    rw [State.getV_setResultThenFlag, if_pos rfl, hflag]
  refine ⟨_, h, fun hf => hVF.trans (if_pos hf), fun hf => hVF.trans (if_neg hf), fun hx => ?result,
    fun r hr hr15 => ?others, rfl⟩
  case result => rw [State.getV_setResultThenFlag, if_neg hx, if_pos rfl, BitVec.toNat_ofNat, hresult]
  case others => rw [State.getV_setResultThenFlag, if_neg hr15, if_neg hr]

/-- Settles O33: the next states of O30, O31 and O32 each write a result and then a flag. -/
theorem flagIsWrittenLast : Obligations.FlagIsWrittenLast := by
  obtain ⟨-, hadd⟩ := addWritesTheLowByteAndTheCarry
  obtain ⟨-, -, hsubs⟩ := subtractionsWriteTheDifferenceAndStrictGreater
  obtain ⟨-, -, hshifts⟩ := shiftsWriteTheBitShiftedOut
  intro x y s a b
  obtain ⟨hsub, hsubn⟩ := hsubs x y s
  obtain ⟨hshr, hshl⟩ := hshifts x y s
  have ha : a < 256 := (s.getV x).isLt
  refine ⟨?add, ?sub, ?shr, ?subn, ?shl⟩
  case add => exact writesFlagLast_of_exec (hadd x y s) rfl rfl
  case sub => exact writesFlagLast_of_exec hsub rfl rfl
  case shr =>
    have hhalf : a / 2 % 256 = a / 2 := Nat.mod_eq_of_lt (by omega)
    exact writesFlagLast_of_exec hshr hhalf (ofNat_bit_eq_ite (Nat.mod_lt a Nat.two_pos) Iff.rfl)
  case subn => exact writesFlagLast_of_exec hsubn rfl rfl
  case shl => exact writesFlagLast_of_exec hshl rfl (ofNat_bit_eq_ite (n := a / 128) (by omega) (by omega))

/-! ### The instructions that write V[x] only -/

/-- Settles O28: the rows of the primary table and of T8, and the sum of 7xkk as a number. -/
theorem loadsAndImmediateAddWriteVxOnly : Obligations.LoadsAndImmediateAddWriteVxOnly := by
  obtain ⟨-, -, -, -, -, -, ldVxKk, addVxKk, -⟩ := primaryTableDecodes
  obtain ⟨-, -, -, ldVxVy, -⟩ := subTablesDecode
  refine ⟨ldVxKk, addVxKk, ldVxVy, fun x y kk s => ⟨exec_ldVxKk x kk s, ?add, exec_ldVxVy x y s⟩⟩
  case add =>
    rw [exec_addVxKk, execAddVxKk, add_eq_ofNat]
    rfl

/-- Settles O29: the rows of T8; each handler is one `setV` of V[x]. -/
theorem logicOperationsWriteVxOnly : Obligations.LogicOperationsWriteVxOnly := by
  obtain ⟨-, -, -, -, orVxVy, andVxVy, xorVxVy, -⟩ := subTablesDecode
  exact ⟨orVxVy, andVxVy, xorVxVy, fun x y s => ⟨exec_orVxVy x y s, exec_andVxVy x y s, exec_xorVxVy x y s⟩⟩

/-- Settles O34: the row of the primary table; the byte is the model's next draw and the RNG the one after it. -/
theorem randomByteIsMaskedByKk : Obligations.RandomByteIsMaskedByKk := by
  obtain ⟨-, -, -, -, -, -, -, -, -, -, -, -, rnd, -⟩ := primaryTableDecodes
  exact ⟨rnd, fun x kk s => ⟨s.randomByte, s.advanceRng.rng, exec_rnd x kk s⟩⟩

end Sys2Proof.Machine

namespace Sys2Proof.Machine

/-! ### I as a number (R100 to R102) -/

theorem add_zextByte_eq_ofNat (w : Word) (b : Byte) : w + zextByte b = BitVec.ofNat 16 (w.toNat + b.toNat) := by
  rw [BitVec.ofNat_add, ← zextByte_eq_ofNat, BitVec.ofNat_toNat, BitVec.setWidth_eq]

theorem glyphAddr_eq_ofNat (b : Byte) : glyphAddr b = BitVec.ofNat 16 (0x50 + 5 * (b.toNat % 16)) := by
  rw [← toNat_glyphAddr, BitVec.ofNat_toNat, BitVec.setWidth_eq]

/-- Settles O37: the rows of the tables, and the three values of I as numbers. -/
theorem indexInstructionsWriteIOnly : Obligations.IndexInstructionsWriteIOnly := by
  obtain ⟨-, -, -, -, -, -, -, -, -, -, ldI, -⟩ := primaryTableDecodes
  obtain ⟨-, -, -, -, -, -, -, -, -, -, -, -, -, -, -, -, -, -, -, -, addIVx, ldFVx, -⟩ := subTablesDecode
  refine ⟨ldI, addIVx, ldFVx, fun nnn x s => ⟨?ldI, ?addIVx, ?ldFVx⟩⟩
  case ldI =>
    rw [exec_ldI, execLdI, zextAddr_eq_ofNat]
    rfl
  case addIVx =>
    rw [exec_addIVx, execAddIVx, add_zextByte_eq_ofNat]
    rfl
  case ldFVx =>
    rw [exec_ldFVx, execLdFVx, glyphAddr_eq_ofNat]
    rfl

/-! ### M after a store at I (R36, R103, R104) -/

/-- A write of bytes leaves every byte of M whose address is none of the written ones, each modulo 4096. -/
theorem State.readByte_writeBytes_of_ne (s : State) {a b : Nat} (ws : List Byte) (hb : b < 4096)
    (hne : ∀ i, i < ws.length → b ≠ (a + i) % 4096) : (s.writeBytes a ws).readByte b = s.readByte b := by
  refine s.readByte_writeBytes_outside a b ws fun i hi => ?_
  rw [memAddr, Nat.mod_eq_of_lt hb]
  exact hne i hi

/-- Fx33 stores the three digits at I, I + 1 and I + 2 (R103). -/
theorem exec_ldBVx_readByte {x : Reg} {s t : State} (h : exec (.ldBVx x) s = .next t) :
    t.readByte s.index.toNat = hundreds (s.getV x) ∧ t.readByte (s.index.toNat + 1) = tens (s.getV x) ∧
      t.readByte (s.index.toNat + 2) = ones (s.getV x) := by
  cases h
  have hdigit (i : Nat) (hi : i < 3) :=
    s.readByte_writeBytes_inside s.index.toNat i [hundreds (s.getV x), tens (s.getV x), ones (s.getV x)] (by simp) hi
  exact ⟨hdigit 0 (by decide), hdigit 1 (by decide), hdigit 2 (by decide)⟩

/-- Settles O38: the row of TF; the digits by `exec_ldBVx_readByte`, and a byte elsewhere is none of the three. -/
theorem bcdStoresThreeDigits : Obligations.BcdStoresThreeDigits := by
  obtain ⟨-, -, -, -, -, -, -, -, -, -, -, -, -, -, -, -, -, -, -, -, -, -, ldBVx, -⟩ := subTablesDecode
  refine ⟨ldBVx, fun x s => ?_⟩
  obtain ⟨t, h⟩ : ∃ t, exec (.ldBVx x) s = .next t := ⟨_, rfl⟩
  obtain ⟨hhundreds, htens, hones⟩ := exec_ldBVx_readByte h
  refine ⟨t, h, ?frame, ?hundreds, ?tens, ?ones, fun b hb h0 h1 h2 => ?others⟩
  case frame => cases h; exact s.writeBytes_eq _ _
  case hundreds => rw [t.readByte_mod, hhundreds, toNat_hundreds]
  case tens => rw [t.readByte_mod, htens, toNat_tens]
  case ones => rw [t.readByte_mod, hones, toNat_ones]
  case others =>
    cases h
    refine s.readByte_writeBytes_of_ne _ hb fun i (hi : i < 3) => ?_
    interval_cases i
    · exact h0
    · exact h1
    · exact h2

/-- Settles O39: the row of TF; the bytes at I + 0 to I + x by `exec_ldMemVx_readByte`, and a byte elsewhere is none of
them. -/
theorem registerStoreWritesV0ToVx : Obligations.RegisterStoreWritesV0ToVx := by
  obtain ⟨-, -, -, -, -, -, -, -, -, -, -, -, -, -, -, -, -, -, -, -, -, -, -, ldMemVx, -⟩ := subTablesDecode
  refine ⟨ldMemVx, fun x s => ?_⟩
  obtain ⟨t, h⟩ : ∃ t, exec (.ldMemVx x) s = .next t := ⟨_, rfl⟩
  refine ⟨t, h, ?frame, fun i hi => ?stored, fun b hb hne => ?others⟩
  case frame => cases h; exact s.writeBytes_eq _ _
  case stored =>
    rw [t.readByte_mod]
    calc t.readByte (s.indexAddr i)
      _ = s.getV (regOf i) := exec_ldMemVx_readByte h hi
      _ = s.getV i := by rw [regOf_val]
  case others =>
    cases h
    refine s.readByte_writeBytes_of_ne _ hb fun i hi => ?_
    rw [State.length_firstRegs] at hi
    exact hne ⟨i, by omega⟩ (Nat.le_of_lt_succ hi)

/-! ### The registers after a load at I (R105) -/

/-- Fx65 leaves in the registers up to x the bytes at I + 0 to I + x, and in those above x what they held. -/
theorem exec_ldVxMem_getV {x : Reg} {s t : State} (h : exec (.ldVxMem x) s = .next t) (r : Reg) :
    t.getV r = if r ≤ x then s.readByte (s.indexAddr r) else s.getV r := by
  cases h
  simp only [s.getV_loadRegs _ x.isLt, Nat.lt_succ_iff, Fin.le_def]

/-- Settles O40: the row of TF, and `exec_ldVxMem_getV` for the registers up to x and above it. -/
theorem registerLoadReadsV0ToVx : Obligations.RegisterLoadReadsV0ToVx := by
  obtain ⟨-, -, -, -, -, -, -, -, -, -, -, -, -, -, -, -, -, -, -, -, -, -, -, -, ldVxMem, -⟩ := subTablesDecode
  refine ⟨ldVxMem, fun x s => ?_⟩
  obtain ⟨t, h⟩ : ∃ t, exec (.ldVxMem x) s = .next t := ⟨_, rfl⟩
  refine ⟨t, h, ?frame, fun i hi => ?loaded, fun i hi => ?others⟩
  case frame => cases h; exact s.loadRegs_eq _
  case loaded => rw [exec_ldVxMem_getV h, if_pos hi, s.readByte_mod, State.indexAddr]
  case others => rw [exec_ldVxMem_getV h, if_neg (not_le_of_gt hi)]

/-! ### A store and then a load (R104, R105) -/

/-- The register file is what its 16 registers hold. -/
theorem State.v_ext {s t : State} (h : ∀ r, s.getV r = t.getV r) : s.v = t.v :=
  Vector.ext fun i hi => h ⟨i, hi⟩

/-- Fx65 with the registers of s up to x in M at I, and those above x in place, ends with the register file of s. -/
theorem exec_ldVxMem_eq {x : Reg} {s w : State} (hlow : ∀ r, r ≤ x → w.readByte (w.indexAddr r) = s.getV r)
    (hhigh : ∀ r, x < r → w.getV r = s.getV r) : exec (.ldVxMem x) w = .next { w with v := s.v } := by
  obtain ⟨u, h⟩ : ∃ u, exec (.ldVxMem x) w = .next u := ⟨_, rfl⟩
  have hv : u.v = s.v := State.v_ext fun r => by
    rw [exec_ldVxMem_getV h]
    split
    case isTrue hr => exact hlow r hr
    case isFalse hr => exact hhigh r (lt_of_not_ge hr)
  have hframe : u = { w with v := u.v } := by cases h; exact w.loadRegs_eq _
  rw [h, hframe, hv]

/-- Settles O41: what Fx65 reads at I + i is what Fx55 stored there, V[i]; the state after the store is one such w, with
the registers it already has. -/
theorem storeThenLoadRestoresTheRegisters : Obligations.StoreThenLoadRestoresTheRegisters := by
  intro x s
  obtain ⟨t, h⟩ : ∃ t, exec (.ldMemVx x) s = .next t := ⟨_, rfl⟩
  have hload (w : State) (hindex : w.index = s.index) (hmem : ∀ a, w.readByte a = t.readByte a)
      (hhigh : ∀ r, x < r → w.getV r = s.getV r) : exec (.ldVxMem x) w = .next { w with v := s.v } := by
    refine exec_ldVxMem_eq (fun r hr => ?_) hhigh
    calc w.readByte (w.indexAddr r)
      _ = t.readByte (s.indexAddr r) := by rw [hmem, State.indexAddr, State.indexAddr, hindex]
      _ = s.getV (regOf r) := exec_ldMemVx_readByte h hr
      _ = s.getV r := by rw [regOf_val]
  have hframe : t.index = s.index ∧ t.v = s.v := by cases h; exact ⟨s.writeBytes_index _ _, s.writeBytes_v _ _⟩
  obtain ⟨hindex, hv⟩ := hframe
  have hsame : { t with v := s.v } = t := by rw [← hv]
  refine ⟨t, t, h, hload, ?again, rfl⟩
  case again => rw [hload t hindex (fun _ => rfl) fun r _ => exec_getV_of_not_writes h id, hsame]

end Sys2Proof.Machine

namespace Sys2Proof.Machine

/-! ### The countdown of a timer that is set once (R113) -/

/-- A timer that cycle 0 sets to v before its tick, and that every later cycle up to m only ticks, has been ticked j + 1
times after cycle j. -/
theorem timer_counts_down {timer : Nat → Nat} {v m : Nat} (hset : timer 1 = v - 1)
    (hkeep : ∀ j, 1 ≤ j → j ≤ m → timer (j + 1) = timer j - 1) : ∀ j, j ≤ m → timer (j + 1) = v - 1 - j
  | 0, _ => hset
  | j + 1, hj => calc timer (j + 1 + 1)
      _ = timer (j + 1) - 1 := hkeep (j + 1) (Nat.le_add_left 1 j) hj
      _ = v - 1 - j - 1 := by rw [timer_counts_down hset hkeep j (Nat.le_of_succ_le hj)]
      _ = v - 1 - (j + 1) := Nat.sub_sub _ _ _

/-- Settles O17: by O16 cycle 0 leaves v − 1 in its timer and each later cycle takes one more, so `timer_counts_down`
holds of DT and of ST along the run. -/
theorem setTimerCountsDownToZero : Obligations.SetTimerCountsDownToZero := by
  intro run m x hrun
  obtain ⟨hticks, -⟩ := timersTickOncePerCompletedCycle
  have hcycle (j : Nat) (hj : j ≤ m) := by
    obtain ⟨hstep, hbefore, hafter⟩ := hrun j hj
    exact hticks (run j) (run (j + 1)) hbefore hstep hafter
  obtain ⟨setDt, -, setSt, -⟩ := hcycle 0 (Nat.zero_le m)
  refine ⟨fun hset hlater => ?dt, fun hset hlater => ?st⟩
  case dt =>
    refine timer_counts_down (timer := fun j => (run j).dt.toNat) (setDt x hset) fun j hpos hj => ?_
    obtain ⟨-, keepDt, -⟩ := hcycle j hj
    exact keepDt (hlater j hpos hj)
  case st =>
    refine timer_counts_down (timer := fun j => (run j).st.toNat) (setSt x hset) fun j hpos hj => ?_
    obtain ⟨-, -, -, keepSt⟩ := hcycle j hj
    exact keepSt (hlater j hpos hj)

/-! ### A cycle whose EXECUTE completes -/

/-- TICK comes after an EXECUTE that raises nothing (R63, R68). -/
theorem step_of_exec {i : Instr} {s u : State} (hs : s.fault = .none) (hi : decode s.fetchWord = .instr i)
    (hexec : exec i s.fetch.advance = .next u) (hu : u.fault = .none) : step s = .next u.tick := by
  rw [step_of_instr hs hi, hexec]
  exact if_pos hu

/-- Settles O47: the rows of TF and the three copies; `step_of_exec` puts the tick after the copy. -/
theorem timerMovesCopyTheValueBeforeTheTick : Obligations.TimerMovesCopyTheValueBeforeTheTick := by
  obtain ⟨-, -, -, -, -, -, -, -, -, -, -, -, -, -, -, -, ldVxDt, -, ldDtVx, ldStVx, -⟩ := subTablesDecode
  refine ⟨ldVxDt, ldDtVx, ldStVx, fun x s => ⟨⟨exec_ldVxDt x s, exec_ldDtVx x s, exec_ldStVx x s⟩, fun hs =>
    ⟨fun hi => ?readDt, fun hi => ?setDt, fun hi => ?setSt⟩⟩⟩
  case readDt =>
    exact ⟨_, step_of_exec hs hi (exec_ldVxDt x _) hs, s.fetch.advance.getV_setV_same x s.dt, toNat_tickTimer s.dt⟩
  case setDt => exact ⟨_, step_of_exec hs hi (exec_ldDtVx x _) hs, toNat_tickTimer (s.getV x)⟩
  case setSt => exact ⟨_, step_of_exec hs hi (exec_ldStVx x _) hs, toNat_tickTimer (s.getV x)⟩

/-! ### LD Vx,K by whether a key is pressed (R110) -/

theorem exec_ldVxK_pressed (x : Reg) {s : State} {k : Key} (hk : s.key k = true)
    (hlowest : ∀ j, j < k → s.key j = false) : exec (.ldVxK x) s = .next (s.setV x (keyByte k)) := by
  rw [exec_ldVxK, execLdVxK, (s.lowestKey_eq_some k).2 ⟨hk, hlowest⟩]

theorem exec_ldVxK_waits (x : Reg) {s : State} (hnone : ∀ k, s.key k = false) :
    exec (.ldVxK x) s = .next (s.setPc (s.pc - 2)) := by
  rw [exec_ldVxK, execLdVxK, s.lowestKey_eq_none.2 hnone]

/-- Settles O48: the row of TF and the two outcomes of the key scan; a waiting cycle takes back the 2 that ADVANCE added
to PC. -/
theorem keyWaitTakesTheLowestKeyOrStays : Obligations.KeyWaitTakesTheLowestKeyOrStays := by
  obtain ⟨-, -, -, -, -, -, -, -, -, -, -, -, -, -, -, -, -, ldVxK, -⟩ := subTablesDecode
  refine ⟨ldVxK, fun x s => ⟨fun _ => exec_ldVxK_pressed x, exec_ldVxK_waits x, fun hs hi hnone => ?waiting⟩⟩
  case waiting =>
    have hpc : s.fetch.advance.pc - 2 = s.pc := BitVec.add_sub_cancel s.pc 2
    rw [step_of_exec hs hi (exec_ldVxK_waits x hnone) hs, hpc]
    rfl

/-! ### The key skips (R107, R108) -/

theorem keyOf_eq_ofNat (b : Byte) : keyOf b = Fin.ofNat 16 b.toNat := Fin.ext (val_keyOf b)

/-- Settles O26: the rows of TE, and `State.skipIf_of_iff` with the test of the key that the low nibble numbers. -/
theorem keySkipsTestTheLowNibble : Obligations.KeySkipsTestTheLowNibble := by
  obtain ⟨-, -, -, -, -, -, -, -, -, -, -, -, -, skp, sknp, -⟩ := subTablesDecode
  refine ⟨skp, sknp, fun x s => ⟨?skp, ?sknp⟩⟩
  case skp => rw [exec_skp, execSkp, s.skipIf_of_iff Iff.rfl, keyOf_eq_ofNat]
  case sknp => rw [exec_sknp, execSknp, s.skipIf_of_iff (Iff.of_eq (Bool.not_eq_true' _)), keyOf_eq_ofNat]

end Sys2Proof.Machine

namespace Sys2Proof.Machine

/-! ### A cycle whose EXECUTE raises StackFault (R63, R116) -/

/-- What EXECUTE had done is dropped, TICK is left out, and only the fault status is recorded. -/
theorem step_of_exec_raises {i : Instr} {s u : State} (hs : s.fault = .none) (hi : decode s.fetchWord = .instr i)
    (hexec : exec i s.fetch.advance = .next u) (hu : u.fault ≠ .none) : step s = .next (s.setFault u.fault) := by
  rw [step_of_instr hs hi, hexec]
  exact if_neg hu

/-- Of all handlers only those of CALL and RET raise StackFault: NOP writes nothing (R67, R116). -/
theorem execHandler_raises_cases {w : Handler} {s t : State} (h : execHandler w s = .next t) (hs : s.fault = .none)
    (ht : t.fault ≠ .none) :
    ((∃ nnn, w = .instr (.call nnn)) ∧ s.sp = 16 ∧ t.fault = .stackOverflow) ∨
    (w = .instr .ret ∧ s.sp = 0 ∧ t.fault = .stackUnderflow) := by
  cases w with
  | instr i =>
    obtain ⟨⟨nnn, rfl⟩, hsp, rfl⟩ | ⟨rfl, hsp, rfl⟩ := exec_raises h hs ht
    · exact .inl ⟨⟨nnn, rfl⟩, hsp, rfl⟩
    · exact .inr ⟨rfl, hsp, rfl⟩
  | nop _ => cases h; exact absurd hs ht

/-- Settles O18: CALL at SP = 16 and RET at SP = 0 raise, and `step_of_exec_raises` ends their cycle; conversely, a
running cycle that ends Faulted took the third way of `step_cases`, whose handler is one of these two. -/
theorem stackFaultCommitsNothing : Obligations.StackFaultCommitsNothing := by
  refine ⟨rfl, rfl, rfl, fun s hs => ⟨fun nnn hi hsp => ?overflow, fun hi hsp => ?underflow, fun t h ht => ?only⟩⟩
  case overflow => exact step_of_exec_raises hs hi (exec_call_overflow nnn hsp) nofun
  case underflow => exact step_of_exec_raises hs hi (exec_ret_underflow hsp) nofun
  case only =>
    obtain ⟨hfaulted, -⟩ | ⟨u, -, hu, ⟨hok, rfl⟩ | ⟨hraised, rfl⟩⟩ := step_cases h
    · exact absurd hs hfaulted
    · exact absurd hok ht
    · obtain ⟨hcall, hsp, hfault⟩ | ⟨hret, hsp, hfault⟩ := execHandler_raises_cases hu hs hraised
      · exact .inl ⟨hcall, hsp, congrArg s.setFault hfault⟩
      · exact .inr ⟨hret, hsp, congrArg s.setFault hfault⟩

/-! ### The host operations beside the fault status (R117) -/

theorem step_of_faulted {s : State} (hs : s.Faulted) : step s = .next s := if_neg hs

/-- A write of bytes neither reads nor writes the fault status. -/
theorem State.writeBytes_setFault (s : State) (c : FaultStatus) (a : Nat) (ws : List Byte) :
    (s.setFault c).writeBytes a ws = (s.writeBytes a ws).setFault c := by
  induction ws generalizing s a with
  | nil => rfl
  | cons w ws ih => exact ih (s.writeByte a w) (a + 1)

/-- An operation other than Cycle and Reset does the same whatever the fault status is, and carries it along. -/
theorem hostApply_setFault {op : HostOp} (hcycle : op ≠ .cycle) (hreset : ∀ seed, op ≠ .reset seed) (s : State) :
    ∃ t, hostApply op s = .next t ∧ ∀ c, hostApply op (s.setFault c) = .next (t.setFault c) := by
  cases op with
  | cycle => exact absurd rfl hcycle
  | reset seed => exact absurd rfl (hreset seed)
  | loadRom bytes => exact ⟨_, rfl, fun c => congrArg _ (s.writeBytes_setFault c _ _)⟩
  | writeKey | readFB | readST | readFault => exact ⟨_, rfl, fun _ => rfl⟩

/-- A Faulted block stays so, with the same status, under every operation but Reset: Cycle changes nothing. -/
theorem hostApply_fault_of_faulted {op : HostOp} {s t : State} (hs : s.Faulted) (hreset : ∀ seed, op ≠ .reset seed)
    (h : hostApply op s = .next t) : t.fault = s.fault := by
  by_cases hcycle : op = .cycle
  · subst hcycle
    cases (step_of_faulted hs).symm.trans h
    rfl
  · obtain ⟨u, -, hkeep⟩ := hostApply_setFault hcycle hreset s
    cases (hkeep s.fault).symm.trans h
    rfl

/-- Settles O19: Cycle is `step_of_faulted`; for the operations beside Cycle and Reset, `hostApply_setFault` starts from
the block without its fault, and the Faulted block is that one with the fault put back. -/
theorem faultedBlockWaitsForReset : Obligations.FaultedBlockWaitsForReset := by
  refine fun s hs => ⟨step_of_faulted hs, fun hsucceeds => hsucceeds hs, fun op ⟨hcycle, hreset⟩ => ?asRunning,
    fun op t => hostApply_fault_of_faulted hs, fun seed => ⟨_, rfl, rfl⟩, rfl⟩
  case asRunning =>
    obtain ⟨t, hrunning, hcarry⟩ := hostApply_setFault hcycle hreset (s.setFault .none)
    exact ⟨t, hrunning, hcarry s.fault⟩

end Sys2Proof.Machine

namespace Sys2Proof.Machine

/-! ### The memory that Reset leaves (R128, R129) -/

theorem resetByte_inside (font : Config.Font) {i : Nat} (hi : i < 80) :
    Config.resetByte font (0x050 + i) = font[i] := by
  have hfont : 0x050 ≤ 0x050 + i ∧ 0x050 + i < 0x050 + 80 := by omega
  calc Config.resetByte font (0x050 + i)
    _ = font[0x050 + i - 0x050] := dif_pos hfont
    _ = font[i] := by simp

theorem resetByte_outside (font : Config.Font) {a : Nat} (ha : a < 0x050 ∨ 0x0A0 ≤ a) :
    Config.resetByte font a = 0 := by
  have hfont : ¬ (0x050 ≤ a ∧ a < 0x050 + 80) := by omega
  exact dif_neg hfont

/-- After Reset no byte is listed, so each one reads as Reset leaves it. -/
theorem State.readByte_resetWith (font : Config.Font) (seed : Nat) {a : Nat} (ha : a < 4096) :
    (State.resetWith font seed).readByte a = Config.resetByte font a :=
  congrArg (Config.resetByte font) (Nat.mod_eq_of_lt ha)

/-- Settles O1: the scalar fields are the ones `resetWith` writes, the registers, S, KP and FB are replicated vectors, and
M is read through `readByte_resetWith`, inside and outside the font. -/
theorem resetLeavesTheStatedValues : Obligations.ResetLeavesTheStatedValues := by
  refine ⟨fun _ _ => rfl, fun font seed => ⟨rfl, rfl, rfl, rfl, rfl, rfl, rfl, rfl, fun r => ?registers, fun j => ?stack,
    fun k => ?keys, getElem_blankScreen, fun d j => ?glyphs, fun a ha hout => ?zeros⟩⟩
  case registers => exact Vector.getElem_replicate r.isLt
  case stack => exact Vector.getElem_replicate j.isLt
  case keys => exact Vector.getElem_replicate k.isLt
  case glyphs =>
    have hlt : 5 * d.val + j.val < 80 := by omega
    rw [State.readByte_resetWith font seed (by omega), Nat.add_assoc, resetByte_inside font hlt]
  case zeros => rw [State.readByte_resetWith font seed ha, resetByte_outside font hout]

end Sys2Proof.Machine
